-- ==== Sys2Proof/Word.lean ====
section
/-! DEFINITION. The word types of CANCSR and the fixed widths of 00_scope.md rule R7. -/

namespace Sys2Proof

/-- A register word or a host temporary: `WORD` = 32 bits (00_scope R7). -/
abbrev Word := BitVec 32

/-- An operation word: `OPW` = 64 bits (00_scope R7, 30_encoding R100). -/
abbrev OpWord := BitVec 64

/-- A byte of the register window (20_memory R73) and the width of an identifier lane (`LANE` = 8). -/
abbrev Byte := BitVec 8

/-- A byte offset on the bus, `off[9:0]` (20_memory R72). -/
abbrev BusOffset := BitVec 10

/-- An operand that names a temporary, 0..15 (`NTEMP` = 16). -/
abbrev Temp := Fin 16

/-- An operand that names a register by its word index (8 bits, 30_encoding R101). -/
abbrev RegIdx := Fin 256

/-- A bit position or a width minus one (5 bits, 30_encoding R101). -/
abbrev BitPos := Fin 32

/-- `STRIDE`, `SID_BITS` and `EID_BITS` of 00_scope R7. -/
def stride : Nat := 4
def sidBits : Nat := 11
def eidBits : Nat := 29

end Sys2Proof
end

