-- ==== Sys2Proof/Reasons.lean ====
section
/-! DEFINITION. The closed lists of refusal and fault reasons (60_exceptions.md rules R232, R233). They are verdicts of
the model about a HOST step, written into the marks `refused` and `faulted` of the state; the hardware raises nothing. -/

namespace Sys2Proof

/-- Why an operation is refused (60_exceptions R232, a closed list). -/
inductive RefuseReason where
  /-- Decode: `op` is none of the eleven of R103. -/
  | illegalOp (op : BitVec 6)
  /-- Decode: a must-be-zero field is not zero. -/
  | reservedBits
  /-- RD, WR: the word index lies at or past `NWORDS`. -/
  | outOfWindow (a : Nat)
  /-- RD, WR: the word is a reserved slot. -/
  | reservedSlot (a : Nat)
  /-- FEXT, FINS: the field would pass bit 31. -/
  | fieldSpan (lsb w : Nat)
  /-- The run of temporaries would pass `t15`. -/
  | tempRun
  /-- The bare bus port only: an offset that is no multiple of 4, or a width other than 32 bits. -/
  | misaligned
  deriving DecidableEq, Repr

/-- Why an operation faults (60_exceptions R233, a closed list with one member). -/
inductive FaultReason where
  /-- Temporary `t[i]` was read and no operation has written it. -/
  | unwrittenTemp (i : Nat)
  deriving DecidableEq, Repr

end Sys2Proof
end

