-- ==== Sys2Proof/Syntax.lean ====
section
/-! DEFINITION. The eleven operations of 30_encoding.md rule R103, one constructor per row of spec/opcode_table.json. -/

namespace Sys2Proof

/-- An operation with its operands (30_encoding R102, R104, R110). A field width `w` is written `wm1 + 1`. -/
inductive Instr where
  /-- `RD td, REG` (40_register_access R131). -/
  | rd (td : Temp) (reg : RegIdx)
  /-- `WR REG, ts` (40_register_access R135). -/
  | wr (reg : RegIdx) (ts : Temp)
  /-- `FEXT td, ts, lsb, w` (41_bitfield R150). -/
  | fext (td ts : Temp) (lsb wm1 : BitPos)
  /-- `FINS td, ts, lsb, w` (41_bitfield R153). -/
  | fins (td ts : Temp) (lsb wm1 : BitPos)
  /-- `FIR.PACK td, ts` (41_bitfield R156). -/
  | firPack (td ts : Temp)
  /-- `FIR.UNPACK td, ts` (41_bitfield R158). -/
  | firUnpack (td ts : Temp)
  /-- `ENC.STD td, ts` (42_id_codec R184). -/
  | encStd (td ts : Temp)
  /-- `DEC.STD td, ts` (42_id_codec R185). -/
  | decStd (td ts : Temp)
  /-- `ENC.EXT td, ts` (42_id_codec R186). -/
  | encExt (td ts : Temp)
  /-- `DEC.EXT td, ts` (42_id_codec R187). -/
  | decExt (td ts : Temp)
  /-- `LI td, imm` (43_harness_and_macros R200). -/
  | li (td : Temp) (imm : Word)
  deriving DecidableEq, Repr

end Sys2Proof
end

