-- ==== Sys2Proof/Decode.lean ====
section
/-! DEFINITION. Decoding and encoding of the 64-bit operation word (30_encoding.md rules R100 to R106). -/

namespace Sys2Proof

/-! ## Fields of the word (R101) -/

def opField (x : OpWord) : BitVec 6 := x.extractLsb' 58 6
def tdField (x : OpWord) : BitVec 4 := x.extractLsb' 54 4
def tsField (x : OpWord) : BitVec 4 := x.extractLsb' 50 4
def regField (x : OpWord) : BitVec 8 := x.extractLsb' 42 8
def lsbField (x : OpWord) : BitVec 5 := x.extractLsb' 37 5
def wm1Field (x : OpWord) : BitVec 5 := x.extractLsb' 32 5
def immField (x : OpWord) : BitVec 32 := x.extractLsb' 0 32

/-! ## The opcode map (R103) -/

/-- The eleven operations without their operands. -/
inductive Op where
  | rd | wr | fext | fins | firPack | firUnpack | encStd | decStd | encExt | decExt | li
  deriving DecidableEq, Repr

/-- A row of the opcode map: a word `x` spells the operation when `x & mask = pattern` (the spec's `match`). -/
structure OpRow where
  op       : Op
  mnemonic : String
  number   : BitVec 6
  pattern  : OpWord
  mask     : OpWord
  deriving DecidableEq, Repr

/-- The table of 30_encoding R103. -/
def opTable : List OpRow :=
  [ ⟨.rd,        "RD",         0x01, 0x0400000000000000, 0xFC3C03FFFFFFFFFF⟩,
    ⟨.wr,        "WR",         0x02, 0x0800000000000000, 0xFFC003FFFFFFFFFF⟩,
    ⟨.fext,      "FEXT",       0x08, 0x2000000000000000, 0xFC03FC00FFFFFFFF⟩,
    ⟨.fins,      "FINS",       0x09, 0x2400000000000000, 0xFC03FC00FFFFFFFF⟩,
    ⟨.firPack,   "FIR.PACK",   0x0A, 0x2800000000000000, 0xFC03FFFFFFFFFFFF⟩,
    ⟨.firUnpack, "FIR.UNPACK", 0x0B, 0x2C00000000000000, 0xFC03FFFFFFFFFFFF⟩,
    ⟨.encStd,    "ENC.STD",    0x10, 0x4000000000000000, 0xFC03FFFFFFFFFFFF⟩,
    ⟨.decStd,    "DEC.STD",    0x11, 0x4400000000000000, 0xFC03FFFFFFFFFFFF⟩,
    ⟨.encExt,    "ENC.EXT",    0x12, 0x4800000000000000, 0xFC03FFFFFFFFFFFF⟩,
    ⟨.decExt,    "DEC.EXT",    0x13, 0x4C00000000000000, 0xFC03FFFFFFFFFFFF⟩,
    ⟨.li,        "LI",         0x20, 0x8000000000000000, 0xFC3FFFFF00000000⟩ ]

/-- The word spells the row's operation (R103). -/
def OpRow.spells (r : OpRow) (x : OpWord) : Bool := x &&& r.mask = r.pattern

/-- The operation's format (R102). -/
inductive Format where
  | br | bw | f | p | i
  deriving DecidableEq, Repr

def Op.format : Op → Format
  | .rd => .br
  | .wr => .bw
  | .fext | .fins => .f
  | .firPack | .firUnpack | .encStd | .decStd | .encExt | .decExt => .p
  | .li => .i

/-- Every must-be-zero field of the format is zero in `x` (R102, `WF_ZERO` of R105). -/
def Format.zeroFieldsClear (x : OpWord) : Format → Bool
  | .br => tsField x = 0 ∧ lsbField x = 0 ∧ wm1Field x = 0 ∧ immField x = 0
  | .bw => tdField x = 0 ∧ lsbField x = 0 ∧ wm1Field x = 0 ∧ immField x = 0
  | .f => regField x = 0 ∧ immField x = 0
  | .p => regField x = 0 ∧ lsbField x = 0 ∧ wm1Field x = 0 ∧ immField x = 0
  | .i => tsField x = 0 ∧ regField x = 0 ∧ lsbField x = 0 ∧ wm1Field x = 0

/-! ## Decoding -/

/-- Operand assembly (R104): each field used as it stands. -/
def Op.assemble (x : OpWord) : Op → Instr
  | .rd => .rd (tdField x).toFin (regField x).toFin
  | .wr => .wr (regField x).toFin (tsField x).toFin
  | .fext => .fext (tdField x).toFin (tsField x).toFin (lsbField x).toFin (wm1Field x).toFin
  | .fins => .fins (tdField x).toFin (tsField x).toFin (lsbField x).toFin (wm1Field x).toFin
  | .firPack => .firPack (tdField x).toFin (tsField x).toFin
  | .firUnpack => .firUnpack (tdField x).toFin (tsField x).toFin
  | .encStd => .encStd (tdField x).toFin (tsField x).toFin
  | .decStd => .decStd (tdField x).toFin (tsField x).toFin
  | .encExt => .encExt (tdField x).toFin (tsField x).toFin
  | .decExt => .decExt (tdField x).toFin (tsField x).toFin
  | .li => .li (tdField x).toFin (immField x)

/-- Decoding as 43_harness_and_macros R204 writes it: the row the word spells; if none, `IllegalOp` when `op` is not listed,
`ReservedBits` when a must-be-zero field is set. Total on 64-bit words. -/
def decode (x : OpWord) : Except RefuseReason Instr :=
  match opTable.find? (·.spells x) with
  | some r => .ok (r.op.assemble x)
  | none => .error (if opTable.any (·.number = opField x) then .reservedBits else .illegalOp (opField x))

/-- What decoding reads from an instruction whose bits are `w`, numbered as spec/opcode_table.json numbers them. An
operation is one 64-bit word, so the table's numbering is the word's own. -/
def decodeTableWord (nbits w : Nat) : Option Instr :=
  (decode (BitVec.ofNat 64 (w % 2 ^ nbits))).toOption

/-! ## Encoding -/

/-- A word from its seven fields (R101), most significant first. -/
def packWord (op : BitVec 6) (td ts : BitVec 4) (reg : BitVec 8) (lsb wm1 : BitVec 5) (imm : BitVec 32) : OpWord :=
  op ++ td ++ ts ++ reg ++ lsb ++ wm1 ++ imm

/-- The operation word of an operation (R101 to R103): unused fields are zero. -/
def encode : Instr → OpWord
  | .rd td reg => packWord 0x01 (.ofFin td) 0 (.ofFin reg) 0 0 0
  | .wr reg ts => packWord 0x02 0 (.ofFin ts) (.ofFin reg) 0 0 0
  | .fext td ts lsb wm1 => packWord 0x08 (.ofFin td) (.ofFin ts) 0 (.ofFin lsb) (.ofFin wm1) 0
  | .fins td ts lsb wm1 => packWord 0x09 (.ofFin td) (.ofFin ts) 0 (.ofFin lsb) (.ofFin wm1) 0
  | .firPack td ts => packWord 0x0A (.ofFin td) (.ofFin ts) 0 0 0 0
  | .firUnpack td ts => packWord 0x0B (.ofFin td) (.ofFin ts) 0 0 0 0
  | .encStd td ts => packWord 0x10 (.ofFin td) (.ofFin ts) 0 0 0 0
  | .decStd td ts => packWord 0x11 (.ofFin td) (.ofFin ts) 0 0 0 0
  | .encExt td ts => packWord 0x12 (.ofFin td) (.ofFin ts) 0 0 0 0
  | .decExt td ts => packWord 0x13 (.ofFin td) (.ofFin ts) 0 0 0 0
  | .li td imm => packWord 0x20 (.ofFin td) 0 0 0 0 imm

/-- The operation an instruction is an instance of. -/
def Instr.op : Instr → Op
  | .rd _ _ => .rd
  | .wr _ _ => .wr
  | .fext _ _ _ _ => .fext
  | .fins _ _ _ _ => .fins
  | .firPack _ _ => .firPack
  | .firUnpack _ _ => .firUnpack
  | .encStd _ _ => .encStd
  | .decStd _ _ => .decStd
  | .encExt _ _ => .encExt
  | .decExt _ _ => .decExt
  | .li _ _ => .li

end Sys2Proof
end

