-- ==== Sys2Proof/Config.lean ====
section
/-! DEFINITION. The parameters of 00_scope.md rule R7 as one record, and the free value `draw_32()` of rule R11.
The default values and the functions of a configuration are in Machine/Window.lean. -/

namespace Sys2Proof

/-- The registers by name: those of the register order (10_state R30), and the names that the views of the mailbox
region give its words (10_state R32, 30_encoding R113). -/
inductive Reg where
  | mod | cmr | sr | ir | ier
  /-- Reserved word number `k`, counted in register order: words, not slots (log 29). -/
  | rsv (k : Nat)
  | btr0 | btr1 | ocr
  | alc | ecc | ewlr | rxerr | txerr
  /-- Word `k` of the mailbox region. -/
  | mbx (k : Nat)
  | rmc | rbsa | cdr
  /-- Word `k` of the internal-RAM reserved tail. -/
  | iram (k : Nat)
  /-- Frame views: the frame information record. -/
  | fir
  /-- Standard frame view: identifier lane `k` and data byte `k`. -/
  | sid (k : Nat) | sdat (k : Nat)
  /-- Extended frame view: identifier lane `k` and data byte `k`. -/
  | eid (k : Nat) | edat (k : Nat)
  /-- Acceptance-filter view: code and mask word `k`. -/
  | code (k : Nat) | mask (k : Nat)
  deriving DecidableEq, Repr

/-- A field is named, or it is a reserved range listed so that the widths add up to 32 (10_state R23). -/
inductive FieldKind where
  | named (name : String)
  | reserved
  deriving DecidableEq, Repr

/-- The access column of 10_state R33 to R45. It restricts nothing in the model (40_register_access R137). -/
inductive Access where
  | rw | r | trigger | none
  deriving DecidableEq, Repr

/-- One row of a field table of 10_state R33 to R45. -/
structure FieldDef where
  reg    : Reg
  kind   : FieldKind
  lsb    : Nat
  width  : Nat
  access : Access
  deriving DecidableEq, Repr

/-- Which words CORE may change (10_state R47): the two named presets, or a list of word indices. -/
inductive CoreOwned where
  /-- Every storage word (the default). -/
  | all
  /-- The words whose last column in 10_state R30 lists CORE. -/
  | gk
  /-- The storage words of this list. -/
  | words (l : List Nat)
  deriving DecidableEq, Repr

/-- Whether the controller mode is tied to bit 0 of word 0 (10_state R48). -/
inductive CmodeBinding where
  | free
  | modRm
  deriving DecidableEq, Repr

/-- The parameters of 00_scope R7 that the spec leaves open (92_eei_decisions, "Open parameters in one list"). -/
structure Config where
  base         : Nat
  rsvWords     : Nat
  mbxWords     : Nat
  iramWords    : Nat
  fieldMap     : List FieldDef
  coreOwned    : CoreOwned
  cmodeBinding : CmodeBinding
  deriving DecidableEq, Repr

/-- FREE VALUE. The value of the `n`-th `draw_32()` of a run (00_scope R11: "a fresh 32-bit value under no law"). It has
no body, so nothing can be proved of it: a statement that mentions it holds for every value. Log 5. -/
opaque Config.draw : Nat → Word

end Sys2Proof
end

