-- ==== Sys2Proof/Machine/Bits.lean ====
section
/-! DEFINITION. The field primitives of 00_scope.md rule R12. -/

namespace Sys2Proof.Machine

/-- `ones(w)` = 2^w - 1 (00_scope R10). -/
def ones (w : Nat) : Word := BitVec.ofNat 32 (2 ^ w - 1)

/-- The bits of a field at `lsb`, `w` wide. -/
def fieldMask (lsb w : Nat) : Word := ones w <<< lsb

/-- `field_get(word, l, w)` (00_scope R12). -/
def fieldGet (word : Word) (lsb w : Nat) : Word := (word >>> lsb) &&& ones w

/-- `field_put(word, l, w, v)` (00_scope R12): clear only the field's bits, insert the low `w` bits of the value. -/
def fieldPut (word : Word) (lsb w : Nat) (v : Word) : Word :=
  (word &&& ~~~ (fieldMask lsb w)) ||| ((v &&& ones w) <<< lsb)

end Sys2Proof.Machine
end

