-- ==== Sys2Proof/Machine/Window.lean ====
section
/-! DEFINITION. The register window as a configuration lays it out: register order and word indices (10_state.md R30), the
classes of words (R31), the three views of the mailbox region (R32), the field map (R33 to R45), IMPL_MASK, CORE_OWNED,
and the default parameters of 00_scope.md R7. -/

namespace Sys2Proof

/-! ## Register order and word indices -/

/-- `n` reserved words, numbered from `k` on. DESIGN CHOICE (log 29): the numbers count words, not slots; R30 and 30_encoding
R111 name RSV0, RSV1, RSV2 for slots of one word only. -/
def rsvRun (k n : Nat) : List Reg := (List.range n).map fun j => .rsv (k + j)

/-- The registers of R30 between the reserved slots, in order. -/
def controlRegs : List Reg := [.mod, .cmr, .sr, .ir, .ier]
def timingRegs : List Reg := [.btr0, .btr1, .ocr]
def errorRegs : List Reg := [.alc, .ecc, .ewlr, .rxerr, .txerr]
def bufferRegs : List Reg := [.rmc, .rbsa, .cdr]

/-- The mailbox region and the internal-RAM reserved tail, `n` words each. -/
def mbxRun (n : Nat) : List Reg := (List.range n).map .mbx
def iramRun (n : Nat) : List Reg := (List.range n).map .iram

/-- The register order of 10_state R30, one entry per word: "mode, command, status, interrupt-flags, interrupt-enable,
reserved, bus-timing-0, ...". Where a slot is not one word the place of each word is log 11's reading, and the number a
reserved word bears is the model's choice (log 29). -/
def Config.layout (cfg : Config) : List Reg :=
  controlRegs ++ rsvRun 0 cfg.rsvWords ++ timingRegs ++ rsvRun cfg.rsvWords (2 * cfg.rsvWords) ++ errorRegs
    ++ mbxRun cfg.mbxWords ++ bufferRegs ++ iramRun cfg.iramWords

/-- `NWORDS`: words in the window (00_scope R7). -/
def Config.nwords (cfg : Config) : Nat := cfg.layout.length

/-- Word index of the first mailbox word: 16 where a reserved slot is one word (10_state R30). -/
def Config.mbxBase (cfg : Config) : Nat := 13 + 3 * cfg.rsvWords

/-- Physical byte address of word `a` (20_memory R71). No rule depends on it. -/
def Config.physAddr (cfg : Config) (a : Nat) : Nat := cfg.base + stride * a

/-- The mailbox word a view name stands for (10_state R32, 30_encoding R113); other names stand for themselves. -/
def Reg.home : Reg → Reg
  | .fir => .mbx 0
  | .sid k => .mbx (1 + k)
  | .sdat k => .mbx (3 + k)
  | .eid k => .mbx (1 + k)
  | .edat k => .mbx (5 + k)
  | .code k => .mbx k
  | .mask k => .mbx (4 + k)
  | r => r

/-- The word index a register name stands for (30_encoding R111, R113), if the window has that word. -/
def Config.wordIndex (cfg : Config) (r : Reg) : Option Nat := cfg.layout.findIdx? (· = r.home)

/-! ## Classes of words -/

/-- The classes of 10_state R31, and what lies past the window (20_memory R81). -/
inductive WordClass where
  | storage
  | strobe
  | reservedSlot
  | outside
  deriving DecidableEq, Repr

/-- The class of a register of the register order. -/
def Reg.wordClass : Reg → WordClass
  | .cmr => .strobe
  | .rsv _ => .reservedSlot
  | .iram _ => .reservedSlot
  | _ => .storage

/-- The class of word `a` (10_state R30, R31). -/
def Config.wordClass (cfg : Config) (a : Nat) : WordClass :=
  match cfg.layout[a]? with
  | none => .outside
  | some r => r.wordClass

/-! ## Field map -/

/-- The fields of `FIELD_MAP` that belong to register name `r`, reserved ranges included. -/
def Config.fieldsOf (cfg : Config) (r : Reg) : List FieldDef := cfg.fieldMap.filter (·.reg = r)

/-- The bits a field of the map occupies if it is named; a reserved range occupies none. -/
def FieldDef.implBits (f : FieldDef) : Word :=
  match f.kind with
  | .named _ => Machine.fieldMask f.lsb f.width
  | .reserved => 0

/-- The union of the named fields that stand in the word of register `r`, whatever view names it. -/
def Config.regMask (cfg : Config) (r : Reg) : Word :=
  (cfg.fieldMap.filter (·.reg.home = r)).foldl (fun m f => m ||| f.implBits) 0

/-- `IMPL_MASK(a)`: the bits of word `a` that belong to a named field (00_scope R7). -/
def Config.implMask (cfg : Config) (a : Nat) : Word :=
  match cfg.layout[a]? with
  | none => 0
  | some r => cfg.regMask r

/-- The bits of word `a` that are storage: the implemented bits of a storage word, none elsewhere (10_state R24, R46). -/
def Config.storageMask (cfg : Config) (a : Nat) : Word :=
  match cfg.wordClass a with
  | .storage => cfg.implMask a
  | _ => 0

/-- The place `lsb, w` of `REG.FIELD` (30_encoding R112). -/
def Config.field? (cfg : Config) (r : Reg) (name : String) : Option (Nat × Nat) :=
  (cfg.fieldMap.find? fun f => f.reg = r ∧ f.kind = .named name).map fun f => (f.lsb, f.width)

/-- The field map lists a well-formed table for register `r` (10_state R23): the widths, reserved ranges included, add up
to 32, every range is a range of a 32-bit word, and no two ranges intersect. -/
def Config.fieldsOk (cfg : Config) (r : Reg) : Bool :=
  let fs := cfg.fieldsOf r
  fs.foldl (fun n f => n + f.width) 0 = 32
    ∧ fs.all (fun f => 1 ≤ f.width ∧ f.lsb + f.width ≤ 32)
    ∧ fs.Pairwise (fun f g => f.lsb + f.width ≤ g.lsb ∨ g.lsb + g.width ≤ f.lsb)

/-! ## Views of the mailbox region -/

/-- The interpretations of the mailbox region (10_state R32). -/
inductive View where
  | filter
  | stdFrame
  | extFrame
  deriving DecidableEq, Repr

/-- What mailbox word `k` means in a view: the table of 10_state R32; `none` is "unused in this view". -/
def View.item : View → Nat → Option Reg
  | .filter, k => if k < 4 then some (.code k) else if k < 8 then some (.mask (k - 4)) else none
  | .stdFrame, k =>
    if k = 0 then some .fir else if k < 3 then some (.sid (k - 1)) else if k < 11 then some (.sdat (k - 3)) else none
  | .extFrame, k =>
    if k = 0 then some .fir else if k < 5 then some (.eid (k - 1)) else if k < 13 then some (.edat (k - 5)) else none

/-! ## Who may change a word -/

/-- The registers whose last column in 10_state R30 lists CORE (preset `GK`). -/
def Reg.coreChanges : Reg → Bool
  | .mod | .sr | .ir | .alc | .ecc | .rxerr | .txerr | .mbx _ | .rmc | .rbsa => true
  | _ => false

/-- `a` is in `CORE_OWNED`; only storage words can be (10_state R47). -/
def Config.owns (cfg : Config) (a : Nat) : Bool :=
  match cfg.coreOwned with
  | .all => cfg.wordClass a = .storage
  | .gk => cfg.wordClass a = .storage ∧ (cfg.layout[a]?).any Reg.coreChanges
  | .words l => cfg.wordClass a = .storage ∧ a ∈ l

/-! ## The default parameters -/

/-- A named field. -/
def fld (r : Reg) (name : String) (lsb width : Nat) (acc : Access) : FieldDef := ⟨r, .named name, lsb, width, acc⟩

/-- A reserved range. -/
def rsvd (r : Reg) (lsb width : Nat) : FieldDef := ⟨r, .reserved, lsb, width, .none⟩

/-- A register with one byte field at bits 7:0 and reserved bits 31:8 (10_state R40, R43, R44). -/
def byteReg (r : Reg) (name : String) (acc : Access) : List FieldDef := [fld r name 0 8 acc, rsvd r 8 24]

/-- 10_state R33. -/
def modFields : List FieldDef :=
  [fld .mod "RM" 0 1 .rw, fld .mod "LOM" 1 1 .rw, fld .mod "STM" 2 1 .rw, fld .mod "AFM" 3 1 .rw, fld .mod "SM" 4 1 .rw,
   rsvd .mod 5 27]

/-- 10_state R34. -/
def cmrFields : List FieldDef :=
  [fld .cmr "TR" 0 1 .trigger, fld .cmr "AT" 1 1 .trigger, fld .cmr "RRB" 2 1 .trigger, fld .cmr "CDO" 3 1 .trigger,
   fld .cmr "GTS" 4 1 .trigger, rsvd .cmr 5 27]

/-- 10_state R35. -/
def srFields : List FieldDef :=
  [fld .sr "RBS" 0 1 .r, fld .sr "DOS" 1 1 .r, fld .sr "TBS" 2 1 .r, fld .sr "TCS" 3 1 .r, fld .sr "RS" 4 1 .r,
   fld .sr "TS" 5 1 .r, fld .sr "ES" 6 1 .r, fld .sr "BS" 7 1 .r, rsvd .sr 8 24]

/-- 10_state R36: the positions of the interrupt-source bitmask, bit 4 reserved. -/
def irFields : List FieldDef :=
  [fld .ir "RI" 0 1 .r, fld .ir "TI" 1 1 .r, fld .ir "EI" 2 1 .r, fld .ir "DOI" 3 1 .r, rsvd .ir 4 1, fld .ir "EPI" 5 1 .r,
   fld .ir "ALI" 6 1 .r, fld .ir "BEI" 7 1 .r, fld .ir "MEI" 8 1 .r, rsvd .ir 9 23]

/-- 10_state R37. -/
def ierFields : List FieldDef :=
  [fld .ier "RIE" 0 1 .rw, fld .ier "TIE" 1 1 .rw, fld .ier "EIE" 2 1 .rw, fld .ier "DOIE" 3 1 .rw, rsvd .ier 4 1,
   fld .ier "EPIE" 5 1 .rw, fld .ier "ALIE" 6 1 .rw, fld .ier "BEIE" 7 1 .rw, fld .ier "MEIE" 8 1 .rw, rsvd .ier 9 23]

/-- 10_state R38. -/
def btrFields : List FieldDef :=
  [fld .btr0 "BRP" 0 6 .rw, fld .btr0 "SJW" 6 2 .rw, rsvd .btr0 8 24, fld .btr1 "TSEG1" 0 4 .rw, fld .btr1 "TSEG2" 4 3 .rw,
   fld .btr1 "SAM" 7 1 .rw, rsvd .btr1 8 24]

/-- 10_state R39. -/
def ocrFields : List FieldDef :=
  [fld .ocr "OCMODE" 0 2 .rw, fld .ocr "OCPOL0" 2 1 .rw, fld .ocr "OCTN0" 3 1 .rw, fld .ocr "OCTP0" 4 1 .rw,
   fld .ocr "OCPOL1" 5 1 .rw, fld .ocr "OCTN1" 6 1 .rw, fld .ocr "OCTP1" 7 1 .rw, rsvd .ocr 8 24]

/-- 10_state R40. -/
def errorFields : List FieldDef :=
  byteReg .alc "ALC" .r ++ byteReg .ecc "ECC" .r ++ byteReg .ewlr "EWLR" .rw ++ byteReg .rxerr "RXERR" .r
  ++ byteReg .txerr "TXERR" .r

/-- 10_state R41: the frame information record. -/
def firFields : List FieldDef :=
  [fld .fir "DLC" 0 4 .rw, fld .fir "UNK" 4 2 .rw, fld .fir "RTR" 6 1 .rw, fld .fir "FF" 7 1 .rw, rsvd .fir 8 24]

/-- 10_state R43, R44: `n` words of one byte each in a view. DESIGN CHOICE (log 27): R43 and R44 give the byte its place; its
field name and its access column are the model's. -/
def viewBytes (r : Nat → Reg) (name : String) (n : Nat) : List FieldDef :=
  (List.range n).flatMap fun k => byteReg (r k) name .rw

/-- 10_state R41, R43, R44: the three views of the mailbox region. DESIGN CHOICE (log 27): the field names SID, SDAT, EID,
EDAT, CODE and MASK are the model's (R43 and R44 name no field); those of FIR are the spec's (R41). -/
def mailboxFields : List FieldDef :=
  firFields ++ viewBytes .sid "SID" 2 ++ viewBytes .sdat "SDAT" 8 ++ viewBytes .eid "EID" 4 ++ viewBytes .edat "EDAT" 8
    ++ viewBytes .code "CODE" 4 ++ viewBytes .mask "MASK" 4

/-- 10_state R45: CDR. -/
def cdrFields : List FieldDef :=
  [fld .cdr "COD" 0 3 .rw, fld .cdr "COFF" 3 1 .rw, rsvd .cdr 4 1, fld .cdr "RXINTEN" 5 1 .rw, fld .cdr "CBP" 6 1 .rw,
   fld .cdr "CAN_M" 7 1 .rw, rsvd .cdr 8 24]

/-- 10_state R45: RMC, RBSA, CDR. -/
def tailFields : List FieldDef := byteReg .rmc "RMC" .r ++ byteReg .rbsa "RBSA" .r ++ cdrFields

/-- The default `FIELD_MAP`: the tables of 10_state R33 to R45 (most of them the spec's own default, log 12). -/
def defaultFieldMap : List FieldDef :=
  modFields ++ cmrFields ++ srFields ++ irFields ++ ierFields ++ btrFields ++ ocrFields ++ errorFields ++ mailboxFields
    ++ tailFields

/-- The default parameters of 00_scope R7. -/
def defaultConfig : Config where
  base := 0x3FF6B000
  rsvWords := 1
  mbxWords := 13
  iramWords := 2
  fieldMap := defaultFieldMap
  coreOwned := .all
  cmodeBinding := .free

end Sys2Proof
end

