-- ==== Sys2Proof/Machine/State.lean ====
section
/-! DEFINITION. The state of CANCSR (10_state.md rule R20) as plain data, its outcomes, and the state after power-on. -/

namespace Sys2Proof.Machine

/-- The register window as bytes by byte offset from `BASE` (20_memory R70, R73), in one canonical form: offsets strictly
rising, no entry equal to what an unlisted byte reads as (`Memory.unlisted`). Log 13. -/
abbrev Memory := List Host.Cell

/-- Controller mode (10_state R48): the source's "configuration mode" and "operating mode". -/
inductive CMode where
  | reset
  | operating
  deriving DecidableEq, Repr

/-- The events of the history (10_state R50). -/
inductive Event where
  /-- HOST read of word `a` returned `v`. -/
  | rd (a : Nat) (v : Word)
  /-- HOST wrote `v` to storage word `a`. -/
  | wr (a : Nat) (v : Word)
  /-- HOST wrote `v` to word 1, the command strobe. -/
  | cmd (v : Word)
  /-- CORE changed word `a` to `v`. -/
  | core (a : Nat) (v : Word)
  /-- The controller mode became `m`. -/
  | mode (m : CMode)
  deriving DecidableEq, Repr

/-- A step CORE may take (10_state R47). -/
inductive CoreStep where
  | coreWrite (a : Nat) (v : Word)
  | coreMode (m : CMode)
  deriving DecidableEq, Repr

/-- Whose turn the next step is (00_scope R16: "Either may be scheduled at any step"). -/
inductive Turn where
  | host
  | core (c : CoreStep)
  deriving DecidableEq, Repr

/-- What ends an operation without completing it (60_exceptions R231). -/
inductive Stop where
  | refuse (r : RefuseReason)
  | fault (f : FaultReason)
  deriving DecidableEq, Repr

/-- The state of the machine. -/
structure State where
  /-- The parameters of 00_scope R7. Not changed by any step (log 10). -/
  cfg       : Config
  /-- The script: a parameter of the run (00_scope R17), not changed by any step (20_memory R88). -/
  script    : List OpWord
  /-- Whose turns come next; HOST's when empty. The model's own field (log 3). -/
  schedule  : List Turn
  /-- `R`, the register file (10_state R21). -/
  regs      : Memory
  /-- `cmode` as CORE supplies it under `CMODE_BINDING = free`; read through `State.cmode` (10_state R48). -/
  cmodeIn   : CMode
  /-- `t0 .. t15`, each a 32-bit value or unwritten (10_state R49). -/
  temps     : Vector (Option Word) 16
  /-- The script counter (10_state R49). -/
  pc        : Nat
  /-- The event history, oldest first (10_state R50). -/
  hist      : List Event
  /-- The sticky mark `refused` with its reason; the spec's Boolean is `refused.isSome` (10_state R51). -/
  refused   : Option RefuseReason
  /-- The sticky mark `faulted` with its reason; the spec's Boolean is `faulted.isSome` (10_state R51). -/
  faulted   : Option FaultReason
  /-- How many draws have been taken. The model's own field (log 5). -/
  draws     : Nat
  deriving DecidableEq, Repr

/-- Why the machine has no next state. Raised by `step` alone, when it is HOST's turn, HOST has no further step
(43_harness_and_macros R204) and no turn is scheduled. Safe: nothing is claimed of a state that is not reached (log 2). -/
inductive Fault where
  /-- `pc` has reached the length of the script: THE END OF A RUN of R204. Raised by `step`. Safe. -/
  | runEnded
  /-- The mark `refused` is set. Raised by `step`. Safe. -/
  | runRefused (r : RefuseReason)
  /-- The mark `faulted` is set. Raised by `step`. Safe. -/
  | runFaulted (f : FaultReason)
  deriving DecidableEq, Repr

/-- Why an operation has no meaning. The spec's refusals are not these: they are next states with the mark `refused` set. -/
inductive Refusal where
  /-- An operation with no meaning in this model, by mnemonic. No arm of `exec` raises it. Safe. -/
  | notModelled (mnemonic : String)
  deriving DecidableEq, Repr

/-- The state after power-on (10_state R60): temporaries unwritten, `pc` 0, history empty, marks clear. The spec leaves
`R` and `cmode` unspecified; the values here are the family's, 93_implementation_defined G14: MOD 0x01, SR 0x0C, EWLR 0x60,
the others 0, `cmode` RESET (logs 6, 7, 8). `State.powerOn` (Ops.lean) takes any others. -/
def State.reset : State where
  cfg := defaultConfig
  script := []
  schedule := []
  regs := [(0, 0x01), (8, 0x0C), (52, 0x60)]
  cmodeIn := .reset
  temps := Vector.replicate 16 none
  pc := 0
  hist := []
  refused := none
  faulted := none
  draws := 0

end Sys2Proof.Machine
end

