-- ==== Sys2Proof/Machine/Checks.lean ====
section
/-! DEFINITION. The checks of 30_encoding.md rule R105 on a decoded operation, in the table's order; `WF_OP` and `WF_ZERO`
are decoding's (Decode.lean). -/

namespace Sys2Proof.Machine

/-- `WF_WINDOW`, then `WF_SLOT`, for RD and WR (30_encoding R105). -/
def checkReg (cfg : Config) (a : Nat) : Option RefuseReason :=
  match cfg.wordClass a with
  | .outside => some (.outOfWindow a)
  | .reservedSlot => some (.reservedSlot a)
  | .strobe => none
  | .storage => none

/-- `WF_SPAN`: the field is a field of a 32-bit word. The width is `wm1 + 1`. -/
def checkSpan (lsb wm1 : BitPos) : Option RefuseReason :=
  if lsb.val + wm1.val + 1 ≤ 32 then none else some (.fieldSpan lsb.val (wm1.val + 1))

/-- `WF_RUN`: a run of `n` temporaries from `i` on stays within `t0 .. t15`. -/
def checkRun (i : Temp) (n : Nat) : Option RefuseReason :=
  if i.val + n - 1 ≤ 15 then none else some .tempRun

/-- The reason for which an operation is refused before it executes; `none` when every check passes (30_encoding R105). -/
def checkInstr (cfg : Config) : Instr → Option RefuseReason
  | .rd _ reg => checkReg cfg reg.val
  | .wr reg _ => checkReg cfg reg.val
  | .fext _ _ lsb wm1 => checkSpan lsb wm1
  | .fins _ _ lsb wm1 => checkSpan lsb wm1
  | .firPack _ ts => checkRun ts 4
  | .firUnpack td _ => checkRun td 4
  | .encStd td _ => checkRun td 2
  | .decStd _ ts => checkRun ts 2
  | .encExt td _ => checkRun td 4
  | .decExt _ ts => checkRun ts 4
  | .li _ _ => none

end Sys2Proof.Machine
end

