-- ==== Sys2Proof/WellFormed.lean ====
section
/-! DEFINITION. A well-formed operation: every check of 30_encoding.md rule R105 passes. -/

namespace Sys2Proof

/-- The operation passes every check of 30_encoding R105 under the configuration. -/
abbrev Instr.WellFormed (cfg : Config) (i : Instr) : Prop := Machine.checkInstr cfg i = none

end Sys2Proof
end

