-- ==== Sys2Proof/Machine/Ops.lean ====
section
/-! DEFINITION. The named operations over the register window, the controller mode, the temporaries, the history and the
marks; the bus primitives MemRead and MemWrite (20_memory.md rules R76, R77); CORE's steps (10_state.md rule R47); how an
operation completes, is refused or faults (60_exceptions.md rule R231). The block raises no exception (R230), so taking a
refusal or a fault, `State.stop`, is the one shared operation here. -/

namespace Sys2Proof.Machine

/-! ## Bytes of the window -/

/-- What a byte no cell lists reads as. Log 13. -/
def Memory.unlisted : Byte := 0

/-- The byte at an offset. -/
def Memory.readByte : Memory → Nat → Byte
  | [], _ => Memory.unlisted
  | c :: m, k => if c.1 = k then c.2 else Memory.readByte m k

/-- A cell in front of a memory whose offsets all lie above it, unless it holds what an unlisted byte reads as. -/
def Memory.cons (k : Nat) (b : Byte) (m : Memory) : Memory := if b = Memory.unlisted then m else (k, b) :: m

/-- Write one byte, keeping the canonical form. -/
def Memory.writeByte : Memory → Nat → Byte → Memory
  | [], k, b => Memory.cons k b []
  | c :: m, k, b =>
    if k < c.1 then Memory.cons k b (c :: m)
    else if k = c.1 then Memory.cons k b m
    else c :: Memory.writeByte m k b

/-- The canonical form. -/
abbrev Memory.wf (m : Memory) : Prop := m.Pairwise (fun c d => c.1 < d.1) ∧ ∀ c ∈ m, c.2 ≠ Memory.unlisted

/-- Byte `k` of a word: bits `8k+7 : 8k` (20_memory R73). -/
def byteOf (v : Word) (k : Nat) : Byte := v.extractLsb' (8 * k) 8

/-- The word at word index `a`: byte offset `4a + k` holds bits `8k+7 : 8k` (20_memory R73). -/
def Memory.readWord (m : Memory) (a : Nat) : Word :=
  m.readByte (4 * a + 3) ++ m.readByte (4 * a + 2) ++ m.readByte (4 * a + 1) ++ m.readByte (4 * a)

/-- Write the word at word index `a`. -/
def Memory.writeWord (m : Memory) (a : Nat) (v : Word) : Memory :=
  (((m.writeByte (4 * a) (byteOf v 0)).writeByte (4 * a + 1) (byteOf v 1)).writeByte (4 * a + 2) (byteOf v 2)).writeByte
    (4 * a + 3) (byteOf v 3)

/-! ## Registers, temporaries, history, draws -/

/-- `R[a]` (10_state R21). -/
def State.reg (s : State) (a : Nat) : Word := s.regs.readWord a

/-- `R[a] <- v`. -/
def State.setReg (s : State) (a : Nat) (v : Word) : State := { s with regs := s.regs.writeWord a v }

/-- `t[i]`: its value, or `none` while it is unwritten (10_state R49). -/
def State.temp (s : State) (i : Nat) : Option Word := (s.temps[i]?).getD none

/-- `t[i] <- v`. -/
def State.setTemp (s : State) (i : Nat) (v : Word) : State := { s with temps := s.temps.setIfInBounds i (some v) }

/-- `t[i] <- v0; t[i+1] <- v1; ...` (30_encoding R104). -/
def State.setRun (s : State) (i : Nat) : List Word → State
  | [] => s
  | v :: vs => (s.setTemp i v).setRun (i + 1) vs

/-- `t[i]` as an operand: an unwritten temporary faults (60_exceptions R233). -/
def State.readTemp (s : State) (i : Nat) : Except Stop Word :=
  match s.temp i with
  | some v => .ok v
  | none => .error (.fault (.unwrittenTemp i))

/-- `emit(e)` (10_state R50). -/
def State.emit (s : State) (e : Event) : State := { s with hist := s.hist ++ [e] }

/-- The value of the next `draw_32()` (00_scope R11). -/
def State.nextDraw (s : State) : Word := Config.draw s.draws

/-- The state once that draw is taken. -/
def State.drawn (s : State) : State := { s with draws := s.draws + 1 }

/-! ## Controller mode and mailbox region -/

/-- Bit 0 of the mode register as a mode: 1 is RESET (10_state R48, 20_memory R77). -/
def modeOfBit (b : Bool) : CMode := if b then .reset else .operating

/-- The controller mode on its port: 0 = OPERATING, 1 = RESET (20_memory R72). -/
def CMode.bit : CMode → Bool
  | .reset => true
  | .operating => false

/-- `cmode` (10_state R48): a component of its own under `free`, bit 0 of word 0 under `mod_rm`. -/
def State.cmode (s : State) : CMode :=
  match s.cfg.cmodeBinding with
  | .free => s.cmodeIn
  | .modRm => modeOfBit ((s.reg 0).getLsbD 0)

/-- `R[b] <- draw_32() & IMPL_MASK(b)`. -/
def State.redrawWord (s : State) (b : Nat) : State := (s.drawn).setReg b (s.nextDraw &&& s.cfg.implMask b)

/-- The same for `n` words from `b` on, in ascending order. -/
def State.redrawWords (s : State) (b : Nat) : Nat → State
  | 0 => s
  | n + 1 => (s.redrawWord b).redrawWords (b + 1) n

/-- Every mailbox word redrawn, and the event of the new mode (10_state R47, R48). -/
def State.switchMode (s : State) (m : CMode) : State :=
  (s.redrawWords s.cfg.mbxBase s.cfg.mbxWords).emit (.mode m)

/-- The interpretation of the mailbox region that is valid now (10_state R32): the acceptance filter in RESET mode, else a
frame whose format is FF, bit 7 of the frame information record. -/
def State.activeView (s : State) : View :=
  match s.cmode with
  | .reset => .filter
  | .operating => if (s.reg s.cfg.mbxBase).getLsbD 7 then .extFrame else .stdFrame

/-! ## The bus -/

/-- The byte offset of word `reg` on the bus: `zext_10(reg) << 2` (30_encoding R104). -/
def busOffset (reg : RegIdx) : BusOffset := BitVec.ofNat 10 reg.val <<< 2

/-- `MemRead(off, size)` (20_memory R76); 4 is the only admitted size (R75). -/
def memRead (off : BusOffset) (size : Nat) (s : State) : Except Stop (Word × State) :=
  let a := off.toNat / 4
  if off.toNat % 4 ≠ 0 ∨ size ≠ 4 then .error (.refuse .misaligned)
  else match s.cfg.wordClass a with
    | .outside => .error (.refuse (.outOfWindow a))
    | .reservedSlot => .error (.refuse (.reservedSlot a))
    | .strobe => .ok (s.nextDraw, (s.drawn).emit (.rd a s.nextDraw))
    | .storage =>
      let v := (s.reg a &&& s.cfg.implMask a) ||| (s.nextDraw &&& ~~~ (s.cfg.implMask a))
      .ok (v, (s.drawn).emit (.rd a v))

/-- A HOST write of `v` to storage word `a` (20_memory R77): under `mod_rm` a change of bit 0 of word 0 changes the mode. -/
def State.writeStorage (s : State) (a : Nat) (v : Word) : State :=
  let t := (s.setReg a (v &&& s.cfg.implMask a)).emit (.wr a v)
  if s.cfg.cmodeBinding = .modRm ∧ a = 0 ∧ (s.reg 0).getLsbD 0 ≠ v.getLsbD 0 then
    t.switchMode (modeOfBit (v.getLsbD 0))
  else t

/-- `MemWrite(off, size, v)` (20_memory R77). -/
def memWrite (off : BusOffset) (size : Nat) (v : Word) (s : State) : Except Stop State :=
  let a := off.toNat / 4
  if off.toNat % 4 ≠ 0 ∨ size ≠ 4 then .error (.refuse .misaligned)
  else match s.cfg.wordClass a with
    | .outside => .error (.refuse (.outOfWindow a))
    | .reservedSlot => .error (.refuse (.reservedSlot a))
    | .strobe => .ok (s.emit (.cmd v))
    | .storage => .ok (s.writeStorage a v)

/-! ## CORE -/

/-- `CoreWrite(a, v)` (10_state R47); under `mod_rm` a change of `R[0][0]` changes the mode (R48). -/
def State.coreWrite (s : State) (a : Nat) (v : Word) : State :=
  let w := v &&& s.cfg.implMask a
  let t := (s.setReg a w).emit (.core a w)
  if s.cfg.cmodeBinding = .modRm ∧ a = 0 ∧ (s.reg 0).getLsbD 0 ≠ w.getLsbD 0 then
    t.switchMode (modeOfBit (w.getLsbD 0))
  else t

/-- `CoreMode(m)` (10_state R47). -/
def State.coreMode (s : State) (m : CMode) : State := { s with cmodeIn := m }.switchMode m

/-- CORE may take the step (10_state R47): it owns the word; or the binding is `free` and the mode is another one. -/
def State.coreMay (s : State) : CoreStep → Bool
  | .coreWrite a _ => s.cfg.owns a
  | .coreMode m => s.cfg.cmodeBinding = .free ∧ m ≠ s.cmode

/-- A scheduled turn of CORE: the step, or nothing when it is none CORE may take (log 4). -/
def State.coreTurn (s : State) (c : CoreStep) : State :=
  if s.coreMay c then
    match c with
    | .coreWrite a v => s.coreWrite a v
    | .coreMode m => s.coreMode m
  else s

/-! ## How an operation ends -/

/-- A refused or faulted step: nothing changes but the mark (60_exceptions R231). -/
def State.stop (s : State) : Stop → State
  | .refuse r => { s with refused := some r }
  | .fault f => { s with faulted := some f }

/-- An operation that completes sets `pc <- pc + 1` (43_harness_and_macros R203); one that stops leaves `s` but for the
mark. `s` is the state before the operation. -/
def complete (s : State) : Except Stop State → Host.Outcome State Fault Refusal
  | .ok t => .next { t with pc := t.pc + 1 }
  | .error e => .next (s.stop e)

/-- The checks of 30_encoding R105, which come before anything else the operation does. -/
def passChecks (i : Instr) (s : State) : Except Stop Unit :=
  match checkInstr s.cfg i with
  | none => .ok ()
  | some r => .error (.refuse r)

/-! ## HOST's run -/

/-- Both marks clear (70_reset_and_hazards R263, `clean_marks`). -/
def State.clean (s : State) : Bool := s.refused.isNone ∧ s.faulted.isNone

/-- Why HOST has no further step (43_harness_and_macros R204), if it has none. -/
def State.hostDone (s : State) : Option Fault :=
  match s.refused, s.faulted with
  | some r, _ => some (.runRefused r)
  | none, some f => some (.runFaulted f)
  | none, none => if s.pc < s.script.length then none else some .runEnded

/-- `script[pc]` (43_harness_and_macros R204). -/
def State.fetch (s : State) : OpWord := (s.script[s.pc]?).getD 0

/-- The state with its next turn taken off the schedule. -/
def State.popTurn (s : State) : State := { s with schedule := s.schedule.tail }

/-- The state with `x` placed where HOST fetches next, HOST's turn next, and both marks clear (log 14). -/
def State.placeWord (s : State) (x : OpWord) : State :=
  { s with
    script := s.script.take s.pc ++ List.replicate (s.pc - s.script.length) 0 ++ x :: s.script.drop (s.pc + 1)
    schedule := []
    refused := none
    faulted := none }

/-! ## Power-on with any contents -/

/-- Words written one after the other from index `a` on, each masked to its storage. -/
def State.loadWords (s : State) (a : Nat) : List Word → State
  | [] => s
  | v :: vs => (s.setReg a (v &&& s.cfg.storageMask a)).loadWords (a + 1) vs

/-- A state after power-on (10_state R60) with any parameters, script, schedule, register contents and controller mode:
"A model takes the initial `R` and `cmode` as universally quantified inputs of a claim" (70_reset_and_hazards R260). -/
def State.powerOn (cfg : Config) (script : List OpWord) (schedule : List Turn) (r : List Word) (m : CMode) : State :=
  State.loadWords { State.reset with cfg, script, schedule, regs := [], cmodeIn := m } 0 r

end Sys2Proof.Machine
end

