-- ==== Sys2Proof/Machine/BitField.lean ====
section
/-! DEFINITION. The Bit-Field Accessor operations (41_bitfield.md): FEXT, FINS, FIR.PACK, FIR.UNPACK. -/

namespace Sys2Proof.Machine

/-- The low byte of a frame information record from its four fields, each cut to its width (R156, R157). -/
def firPack (dlc unk rtr ff : Word) : Word :=
  (dlc &&& 0xF) ||| ((unk &&& 0x3) <<< 4) ||| ((rtr &&& 0x1) <<< 6) ||| ((ff &&& 0x1) <<< 7)

/-- DLC, UNK, RTR, FF of a frame information record (R158). -/
def firUnpack (x : Word) : List Word := [fieldGet x 0 4, fieldGet x 4 2, fieldGet x 6 1, fieldGet x 7 1]

/-- `FEXT td, ts, lsb, w` (R150, R151). -/
def execFext (td ts : Temp) (lsb wm1 : BitPos) (s : State) : Host.Outcome State Fault Refusal :=
  complete s do
    passChecks (.fext td ts lsb wm1) s
    let x ← s.readTemp ts.val
    return s.setTemp td.val (fieldGet x lsb.val (wm1.val + 1))

/-- `FINS td, ts, lsb, w` (R153, R154): `td` is read first. -/
def execFins (td ts : Temp) (lsb wm1 : BitPos) (s : State) : Host.Outcome State Fault Refusal :=
  complete s do
    passChecks (.fins td ts lsb wm1) s
    let old ← s.readTemp td.val
    let val ← s.readTemp ts.val
    return s.setTemp td.val (fieldPut old lsb.val (wm1.val + 1) val)

/-- `FIR.PACK td, ts` (R156, R157). -/
def execFirPack (td ts : Temp) (s : State) : Host.Outcome State Fault Refusal :=
  complete s do
    passChecks (.firPack td ts) s
    let dlc ← s.readTemp ts.val
    let unk ← s.readTemp (ts.val + 1)
    let rtr ← s.readTemp (ts.val + 2)
    let ff ← s.readTemp (ts.val + 3)
    return s.setTemp td.val (firPack dlc unk rtr ff)

/-- `FIR.UNPACK td, ts` (R158, R159). -/
def execFirUnpack (td ts : Temp) (s : State) : Host.Outcome State Fault Refusal :=
  complete s do
    passChecks (.firUnpack td ts) s
    let x ← s.readTemp ts.val
    return s.setRun td.val (firUnpack x)

end Sys2Proof.Machine
end

