-- ==== Sys2Proof/Machine/Harness.lean ====
section
/-! DEFINITION. The harness operation LI (43_harness_and_macros.md rule R200). -/

namespace Sys2Proof.Machine

/-- `LI td, imm` (R200). -/
def execLi (td : Temp) (imm : Word) (s : State) : Host.Outcome State Fault Refusal :=
  complete s do
    passChecks (.li td imm) s
    return s.setTemp td.val imm

end Sys2Proof.Machine
end

