-- ==== Sys2Proof/Machine/IdCodec.lean ====
section
/-! DEFINITION. The Identifier Codec (42_id_codec.md): ENC.STD, DEC.STD, ENC.EXT, DEC.EXT. -/

namespace Sys2Proof.Machine

/-- The lane byte of a 32-bit lane operand: bits 7:0 (R183). -/
def lane (v : Word) : Word := v &&& 0xFF

/-- The two lanes of a standard identifier (R180, R184). -/
def encStd (id : Word) : List Word := [lane (id >>> 3), lane (id <<< 5)]

/-- The standard identifier of two lanes (R180, R185). -/
def decStd (l0 l1 : Word) : Word := (lane l0 <<< 3) ||| (lane l1 >>> 5)

/-- The four lanes of an extended identifier (R181, R186). -/
def encExt (id : Word) : List Word := [lane (id >>> 21), lane (id >>> 13), lane (id >>> 5), lane (id <<< 3)]

/-- The extended identifier of four lanes (R181, R187). -/
def decExt (l0 l1 l2 l3 : Word) : Word :=
  (lane l0 <<< 21) ||| (lane l1 <<< 13) ||| (lane l2 <<< 5) ||| (lane l3 >>> 3)

/-- `ENC.STD td, ts` (R184). -/
def execEncStd (td ts : Temp) (s : State) : Host.Outcome State Fault Refusal :=
  complete s do
    passChecks (.encStd td ts) s
    let id ← s.readTemp ts.val
    return s.setRun td.val (encStd id)

/-- `DEC.STD td, ts` (R185). -/
def execDecStd (td ts : Temp) (s : State) : Host.Outcome State Fault Refusal :=
  complete s do
    passChecks (.decStd td ts) s
    let l0 ← s.readTemp ts.val
    let l1 ← s.readTemp (ts.val + 1)
    return s.setTemp td.val (decStd l0 l1)

/-- `ENC.EXT td, ts` (R186). -/
def execEncExt (td ts : Temp) (s : State) : Host.Outcome State Fault Refusal :=
  complete s do
    passChecks (.encExt td ts) s
    let id ← s.readTemp ts.val
    return s.setRun td.val (encExt id)

/-- `DEC.EXT td, ts` (R187). -/
def execDecExt (td ts : Temp) (s : State) : Host.Outcome State Fault Refusal :=
  complete s do
    passChecks (.decExt td ts) s
    let l0 ← s.readTemp ts.val
    let l1 ← s.readTemp (ts.val + 1)
    let l2 ← s.readTemp (ts.val + 2)
    let l3 ← s.readTemp (ts.val + 3)
    return s.setTemp td.val (decExt l0 l1 l2 l3)

end Sys2Proof.Machine
end

