-- ==== Sys2Proof/Machine/RegisterMap.lean ====
section
/-! DEFINITION. The Register Map operations RD and WR (40_register_access.md). -/

namespace Sys2Proof.Machine

/-- `RD td, REG` (R131 to R134). -/
def execRd (td : Temp) (reg : RegIdx) (s : State) : Host.Outcome State Fault Refusal :=
  complete s do
    passChecks (.rd td reg) s
    let (v, t) ← memRead (busOffset reg) 4 s
    return t.setTemp td.val v

/-- `WR REG, ts` (R135 to R139): the checks come before the temporary is read (R136). -/
def execWr (reg : RegIdx) (ts : Temp) (s : State) : Host.Outcome State Fault Refusal :=
  complete s do
    passChecks (.wr reg ts) s
    let v ← s.readTemp ts.val
    memWrite (busOffset reg) 4 v s

end Sys2Proof.Machine
end

