-- ==== Sys2Proof/Machine/Dispatch.lean ====
section
/-! DEFINITION. One arm per operation of 30_encoding.md rule R103. -/

namespace Sys2Proof.Machine

def exec (i : Instr) (s : State) : Host.Outcome State Fault Refusal :=
  match i with
  | .rd td reg => Sys2Proof.Machine.execRd td reg s
  | .wr reg ts => Sys2Proof.Machine.execWr reg ts s
  | .fext td ts lsb wm1 => Sys2Proof.Machine.execFext td ts lsb wm1 s
  | .fins td ts lsb wm1 => Sys2Proof.Machine.execFins td ts lsb wm1 s
  | .firPack td ts => Sys2Proof.Machine.execFirPack td ts s
  | .firUnpack td ts => Sys2Proof.Machine.execFirUnpack td ts s
  | .encStd td ts => Sys2Proof.Machine.execEncStd td ts s
  | .decStd td ts => Sys2Proof.Machine.execDecStd td ts s
  | .encExt td ts => Sys2Proof.Machine.execEncExt td ts s
  | .decExt td ts => Sys2Proof.Machine.execDecExt td ts s
  | .li td imm => Sys2Proof.Machine.execLi td imm s

end Sys2Proof.Machine
end

