-- ==== Sys2Proof/Machine/Step.lean ====
section
/-! DEFINITION. One step of the machine: CORE's when the schedule says so, else HOST's (00_scope.md rule R16,
43_harness_and_macros.md rule R204). -/

namespace Sys2Proof.Machine

/-- A HOST step that is not the end (43_harness_and_macros R204): decode the word at `pc`; a word no row spells is refused;
the operation's meaning makes the checks and executes. -/
def hostExec (s : State) : Host.Outcome State Fault Refusal :=
  match decode s.fetch with
  | .ok i => exec i s
  | .error r => .next (s.stop (.refuse r))

/-- One step. On a turn of HOST, HOST steps if it can; a turn HOST cannot use passes; where no turn is scheduled it is
HOST's, and if HOST has no further step the machine stops (logs 2, 3). -/
def step (s : State) : Host.Outcome State Fault Refusal :=
  match s.schedule with
  | .core c :: _ => .next (s.popTurn.coreTurn c)
  | .host :: _ => if s.hostDone = none then hostExec s.popTurn else .next s.popTurn
  | [] =>
    match s.hostDone with
    | none => hostExec s
    | some f => .fault f

/-- `s` with the operation word whose bits are `w` placed so that the very next step fetches and runs it. -/
def State.withFetchWord (s : State) (nbits w : Nat) : State := s.placeWord (BitVec.ofNat 64 (w % 2 ^ nbits))

end Sys2Proof.Machine
end

