-- ==== Sys2Proof/Machine/Asm.lean ====
section
/-! DEFINITION. The assembler's names and operand order (30_encoding.md rules R110 to R113). -/

namespace Sys2Proof.Machine

/-- An operand of an assembler line (R110): a temporary `t0` .. `t15`, or a number. A register name or `REG.FIELD` stands
for its numbers (R111 to R113; `regNumber`, `Config.field?`). -/
inductive AsmOperand where
  | t (i : Temp)
  | n (v : Nat)
  deriving DecidableEq, Repr

/-- R111, words 0 to 15. DESIGN CHOICE (log 29): where a reserved slot is not one word, RSV0, RSV1, RSV2 are the first three
reserved words of the layout. -/
def plainNames : List (String × Reg) :=
  [("MOD", .mod), ("CMR", .cmr), ("SR", .sr), ("IR", .ir), ("IER", .ier), ("RSV0", .rsv 0), ("BTR0", .btr0),
   ("BTR1", .btr1), ("OCR", .ocr), ("RSV1", .rsv 1), ("RSV2", .rsv 2), ("ALC", .alc), ("ECC", .ecc), ("EWLR", .ewlr),
   ("RXERR", .rxerr), ("TXERR", .txerr)]

/-- R111, words 16 to 33. DESIGN CHOICE (log 29): with other MBX_WORDS or IRAM_WORDS a word past the names R111 lists has no
short name, and a name whose word the layout lacks stands for nothing. -/
def regionNames : List (String × Reg) :=
  [("MBX0", .mbx 0), ("MBX1", .mbx 1), ("MBX2", .mbx 2), ("MBX3", .mbx 3), ("MBX4", .mbx 4), ("MBX5", .mbx 5),
   ("MBX6", .mbx 6), ("MBX7", .mbx 7), ("MBX8", .mbx 8), ("MBX9", .mbx 9), ("MBX10", .mbx 10), ("MBX11", .mbx 11),
   ("MBX12", .mbx 12), ("RMC", .rmc), ("RBSA", .rbsa), ("CDR", .cdr), ("IRAM0", .iram 0), ("IRAM1", .iram 1)]

/-- R113: FIR, code, mask and standard lane words. -/
def filterNames : List (String × Reg) :=
  [("FIR", .fir), ("CODE0", .code 0), ("CODE1", .code 1), ("CODE2", .code 2), ("CODE3", .code 3), ("MASK0", .mask 0),
   ("MASK1", .mask 1), ("MASK2", .mask 2), ("MASK3", .mask 3), ("SID0", .sid 0), ("SID1", .sid 1)]

/-- R113: standard data bytes. -/
def dataNames : List (String × Reg) :=
  [("SDAT0", .sdat 0), ("SDAT1", .sdat 1), ("SDAT2", .sdat 2), ("SDAT3", .sdat 3), ("SDAT4", .sdat 4),
   ("SDAT5", .sdat 5), ("SDAT6", .sdat 6), ("SDAT7", .sdat 7)]

/-- R113: extended lanes and data bytes. -/
def extNames : List (String × Reg) :=
  [("EID0", .eid 0), ("EID1", .eid 1), ("EID2", .eid 2), ("EID3", .eid 3), ("EDAT0", .edat 0), ("EDAT1", .edat 1),
   ("EDAT2", .edat 2), ("EDAT3", .edat 3), ("EDAT4", .edat 4), ("EDAT5", .edat 5), ("EDAT6", .edat 6), ("EDAT7", .edat 7)]

/-- The short names of R111 and the view aliases of R113. -/
def shortNames : List (String × Reg) := plainNames ++ regionNames ++ filterNames ++ dataNames ++ extNames

/-- The word index a register name stands for. -/
def regNumber (cfg : Config) (name : String) : Option Nat :=
  (shortNames.find? fun p => p.1 = name).bind fun p => cfg.wordIndex p.2

/-- The mnemonic of an operation, as the opcode map spells it (R103). -/
def mnemonicOf (o : Op) : String := ((opTable.find? fun r => r.op = o).map (·.mnemonic)).getD ""

/-- The operands of a line in the order of R110: destination first, except that WR names its register first. -/
def asmOperands : Instr → List AsmOperand
  | .rd td reg => [.t td, .n reg.val]
  | .wr reg ts => [.n reg.val, .t ts]
  | .fext td ts lsb wm1 => [.t td, .t ts, .n lsb.val, .n (wm1.val + 1)]
  | .fins td ts lsb wm1 => [.t td, .t ts, .n lsb.val, .n (wm1.val + 1)]
  | .firPack td ts => [.t td, .t ts]
  | .firUnpack td ts => [.t td, .t ts]
  | .encStd td ts => [.t td, .t ts]
  | .decStd td ts => [.t td, .t ts]
  | .encExt td ts => [.t td, .t ts]
  | .decExt td ts => [.t td, .t ts]
  | .li td imm => [.t td, .n imm.toNat]

/-- The operation with a field at `lsb`, `w` wide, if the numbers fit their fields (`wm1 = w - 1`, R110). -/
def asmField (mk : BitPos → BitPos → Instr) (lsb w : Nat) : Option Instr :=
  if h : lsb < 32 ∧ 1 ≤ w ∧ w - 1 < 32 then some (mk ⟨lsb, h.1⟩ ⟨w - 1, h.2.2⟩) else none

/-- A line of format F: `td, ts, lsb, w`. -/
def asmF (mk : Temp → Temp → BitPos → BitPos → Instr) : List AsmOperand → Option Instr
  | [.t td, .t ts, .n lsb, .n w] => asmField (mk td ts) lsb w
  | _ => none

/-- A line of format P: `td, ts`. -/
def asmP (mk : Temp → Temp → Instr) : List AsmOperand → Option Instr
  | [.t td, .t ts] => some (mk td ts)
  | _ => none

/-- The operation with a register word index, if it fits its field. -/
def asmReg (mk : RegIdx → Instr) (a : Nat) : Option Instr := if h : a < 256 then some (mk ⟨a, h⟩) else none

/-- The operation a line of R110 stands for; `none` for operands the mnemonic does not take. -/
def assembleLine (o : Op) (l : List AsmOperand) : Option Instr :=
  match o with
  | .rd => match l with
    | [.t td, .n a] => asmReg (.rd td) a
    | _ => none
  | .wr => match l with
    | [.n a, .t ts] => asmReg (fun reg => .wr reg ts) a
    | _ => none
  | .fext => asmF .fext l
  | .fins => asmF .fins l
  | .firPack => asmP .firPack l
  | .firUnpack => asmP .firUnpack l
  | .encStd => asmP .encStd l
  | .decStd => asmP .decStd l
  | .encExt => asmP .encExt l
  | .decExt => asmP .decExt l
  | .li => match l with
    | [.t td, .n v] => if v < 2 ^ 32 then some (.li td (BitVec.ofNat 32 v)) else none
    | _ => none

end Sys2Proof.Machine
end

