-- ==== Sys2Proof/Machine/Flags.lean ====
section
/-! DEFINITION. CANCSR has no flags and no condition codes (10_state.md rule R49; every operation rule says "Flags written:
none"), so there is no flag computation. What this file holds in their place are the readings of field values: the
enumerations of 41_bitfield.md rules R161 to R167 and the interrupt sources of 60_exceptions.md rules R235 to R237. -/

namespace Sys2Proof.Machine

/-- `enum_decode`'s result (41_bitfield R161): a member by name, or the raw value when no member matches. -/
inductive Decoded (α : Type) where
  | named (m : α)
  | raw (v : Nat)
  deriving DecidableEq, Repr

/-- `enum_decode(E, v)` (41_bitfield R161) for an enumeration given by its members and their values: "never failing, never
guessing". -/
def enumDecode {α : Type} (members : List α) (enc : α → Nat) (v : Nat) : Decoded α :=
  match members.find? (fun m => enc m = v) with
  | some m => .named m
  | none => .raw v

/-- Frame format, the type of FIR.FF (41_bitfield R163). -/
inductive FrameFormat where
  | standard | extended
  deriving DecidableEq, Repr

def FrameFormat.encode : FrameFormat → Nat
  | .standard => 0
  | .extended => 1

def FrameFormat.decode : Nat → Decoded FrameFormat := enumDecode [.standard, .extended] FrameFormat.encode

/-- RTR flag, the type of FIR.RTR (41_bitfield R164). -/
inductive RtrFlag where
  | none | set
  deriving DecidableEq, Repr

def RtrFlag.encode : RtrFlag → Nat
  | .none => 0
  | .set => 1

def RtrFlag.decode : Nat → Decoded RtrFlag := enumDecode [.none, .set] RtrFlag.encode

/-- Output-control mode, the type of OCR.OCMODE (41_bitfield R165). -/
inductive OcMode where
  | biPhase | test | normal | clock
  deriving DecidableEq, Repr

def OcMode.encode : OcMode → Nat
  | .biPhase => 0
  | .test => 1
  | .normal => 2
  | .clock => 3

def OcMode.decode : Nat → Decoded OcMode := enumDecode [.biPhase, .test, .normal, .clock] OcMode.encode

/-- Bus speed (41_bitfield R166); no register field has this type. -/
inductive BusSpeed where
  | kbit100 | kbit125 | kbit250 | kbit500 | kbit800 | kbit1000
  deriving DecidableEq, Repr

/-- The value of a member is its rate in kbit/s (R166, the spec's general knowledge G17; log 26). -/
def BusSpeed.encode : BusSpeed → Nat
  | .kbit100 => 100
  | .kbit125 => 125
  | .kbit250 => 250
  | .kbit500 => 500
  | .kbit800 => 800
  | .kbit1000 => 1000

def BusSpeed.decode : Nat → Decoded BusSpeed :=
  enumDecode [.kbit100, .kbit125, .kbit250, .kbit500, .kbit800, .kbit1000] BusSpeed.encode

/-- The interrupt sources (41_bitfield R167, 60_exceptions R235); bit 4 names none. -/
inductive IrqSource where
  | receive | transmit | error | dataOverrun | errorPassive | arbitrationLost | busError | missError
  deriving DecidableEq, Repr

/-- The bit position of a source (41_bitfield R167). -/
def IrqSource.bit : IrqSource → Nat
  | .receive => 0
  | .transmit => 1
  | .error => 2
  | .dataOverrun => 3
  | .errorPassive => 5
  | .arbitrationLost => 6
  | .busError => 7
  | .missError => 8

/-- The mask value of a source, `1 << bit`. -/
def IrqSource.mask (i : IrqSource) : Word := 1 <<< i.bit

/-- The sources in bit order. -/
def irqSources : List IrqSource :=
  [.receive, .transmit, .error, .dataOverrun, .errorPassive, .arbitrationLost, .busError, .missError]

/-- The set of sources whose bit is 1 in a word (41_bitfield R167). -/
def decodeIrq (v : Word) : List IrqSource := irqSources.filter fun i => v.getLsbD i.bit

/-- The bitmask of a set of sources. -/
def encodeIrq (l : List IrqSource) : Word := l.foldl (fun m i => m ||| i.mask) 0

/-- A source is pending: its bit of IR, word 3 (60_exceptions R236). -/
def State.pending (s : State) (i : IrqSource) : Bool := (s.reg 3).getLsbD i.bit

/-- A source is enabled: its bit of IER, word 4 (60_exceptions R236). -/
def State.enabled (s : State) (i : IrqSource) : Bool := (s.reg 4).getLsbD i.bit

/-- The interrupt line that 60_exceptions R237 offers a model as its own extension; no step reads it (log 19). -/
def State.irq (s : State) : Bool := (s.reg 3 &&& s.reg 4 &&& 0x1EF) ≠ 0

end Sys2Proof.Machine
end

