-- ==== Sys2Proof/Machine/Operands.lean ====
section
/-! DEFINITION. Operand forms: which temporaries an operation reads and writes, in order (30_encoding.md rules R104, R110;
60_exceptions.md rule R233), and the runs of temporaries. -/

namespace Sys2Proof.Machine

/-- `n` temporaries from `i` on. -/
def runOf (i : Temp) (n : Nat) : List Nat := (List.range n).map (i.val + ·)

/-- The temporaries an operation reads, in the order in which an unwritten one is reported (60_exceptions R233). -/
def sources : Instr → List Nat
  | .rd _ _ => []
  | .wr _ ts => [ts.val]
  | .fext _ ts _ _ => [ts.val]
  | .fins td ts _ _ => [td.val, ts.val]
  | .firPack _ ts => runOf ts 4
  | .firUnpack _ ts => [ts.val]
  | .encStd _ ts => [ts.val]
  | .decStd _ ts => runOf ts 2
  | .encExt _ ts => [ts.val]
  | .decExt _ ts => runOf ts 4
  | .li _ _ => []

/-- The temporaries an operation writes when it completes. -/
def dests : Instr → List Nat
  | .rd td _ => [td.val]
  | .wr _ _ => []
  | .fext td _ _ _ => [td.val]
  | .fins td _ _ _ => [td.val]
  | .firPack td _ => [td.val]
  | .firUnpack td _ => runOf td 4
  | .encStd td _ => runOf td 2
  | .decStd td _ => [td.val]
  | .encExt td _ => runOf td 4
  | .decExt td _ => [td.val]
  | .li td _ => [td.val]

/-- The register word an operation accesses on the bus, if it does. -/
def busWord : Instr → Option Nat
  | .rd _ reg => some reg.val
  | .wr reg _ => some reg.val
  | _ => none

end Sys2Proof.Machine
end

