-- ==== Sys2Proof/Machine/Pseudo.lean ====
section
/-! DEFINITION. The pseudo-operations (30_encoding.md rule R114, 43_harness_and_macros.md rules R205 to R215): their
expansions, and running a sequence of operations with no other agent's step in between. They have no encoding of their own. -/

namespace Sys2Proof.Machine

/-- The ten pseudo-operations. `REG.FIELD` is given by its word index and place (30_encoding R112), width `wm1 + 1`. -/
inductive Pseudo where
  /-- `MOV td, ts` (R206). -/
  | mov (td ts : Temp)
  /-- `FLD.RD td, REG.FIELD` (R207). -/
  | fldRd (td : Temp) (reg : RegIdx) (lsb wm1 : BitPos)
  /-- `FLD.WR REG.FIELD, ts` (R208). -/
  | fldWr (reg : RegIdx) (lsb wm1 : BitPos) (ts : Temp)
  /-- `FLD.WRC CMR.FIELD, ts` (R209). -/
  | fldWrc (lsb wm1 : BitPos) (ts : Temp)
  /-- `FIR.WR ts` (R210). -/
  | firWr (ts : Temp)
  /-- `FIR.RD td` (R211). -/
  | firRd (td : Temp)
  /-- `ID.WR.STD ts` (R212). -/
  | idWrStd (ts : Temp)
  /-- `ID.RD.STD td` (R213). -/
  | idRdStd (td : Temp)
  /-- `ID.WR.EXT ts` (R214). -/
  | idWrExt (ts : Temp)
  /-- `ID.RD.EXT td` (R215). -/
  | idRdExt (td : Temp)
  deriving DecidableEq, Repr

/-- The operand of a RD or WR for mailbox word `k` (30_encoding R113, R114). DESIGN CHOICE (log 28): where the word's index
does not fit the 8-bit `reg` field (RSV_WORDS = 80 with `k` 3 or more; RSV_WORDS of 81 or more with every `k`) it is taken
modulo 256; the spec says nothing of that case. -/
def mbxIdx (cfg : Config) (k : Nat) : RegIdx := Fin.ofNat 256 (cfg.mbxBase + k)

/-- The command register, word 1 (10_state R30). -/
def cmrIdx : RegIdx := 1

/-- The expansion of a pseudo-operation (R206 to R215). FIR is mailbox word 0; SID0, SID1 and EID0 .. EID3 are mailbox words
1, 2 and 1 .. 4 (30_encoding R113); an index past word 255 is log 28's. -/
def Pseudo.expand (cfg : Config) : Pseudo → List Instr
  | .mov td ts => [.fext td ts 0 31]
  | .fldRd td reg lsb wm1 => [.rd td reg, .fext td td lsb wm1]
  | .fldWr reg lsb wm1 ts => [.rd 15 reg, .fins 15 ts lsb wm1, .wr reg 15]
  | .fldWrc lsb wm1 ts => [.li 15 0, .fins 15 ts lsb wm1, .wr cmrIdx 15]
  | .firWr ts => [.firPack 15 ts, .wr (mbxIdx cfg 0) 15]
  | .firRd td => [.rd 15 (mbxIdx cfg 0), .firUnpack td 15]
  | .idWrStd ts => [.encStd 14 ts, .wr (mbxIdx cfg 1) 14, .wr (mbxIdx cfg 2) 15]
  | .idRdStd td => [.rd 14 (mbxIdx cfg 1), .rd 15 (mbxIdx cfg 2), .decStd td 14]
  | .idWrExt ts =>
    [.encExt 12 ts, .wr (mbxIdx cfg 1) 12, .wr (mbxIdx cfg 2) 13, .wr (mbxIdx cfg 3) 14, .wr (mbxIdx cfg 4) 15]
  | .idRdExt td =>
    [.rd 12 (mbxIdx cfg 1), .rd 13 (mbxIdx cfg 2), .rd 14 (mbxIdx cfg 3), .rd 15 (mbxIdx cfg 4), .decExt td 12]

/-- The assembler's convention on operands: the bound each expansion rule gives, else that of R205 (no `t12 .. t15`);
FLD.WR is not for the command register (70_reset_and_hazards R271). Log 21. -/
def Pseudo.conventional : Pseudo → Bool
  | .mov td ts => td ≤ 11 ∧ ts ≤ 11
  | .fldRd td _ _ _ => td ≤ 11
  | .fldWr reg _ _ ts => ts ≠ 15 ∧ reg ≠ cmrIdx
  | .fldWrc _ _ ts => ts ≠ 15
  | .firWr ts => ts ≤ 11
  | .firRd td => td ≤ 11
  | .idWrStd ts => ts ≤ 13
  | .idRdStd td => td ≤ 11
  | .idWrExt ts => ts ≤ 11
  | .idRdExt td => td ≤ 11

/-- Operations one after the other with no step of CORE between them (`core_quiet`, 70_reset_and_hazards R263). Once a mark
is set HOST takes no further step (43_harness_and_macros R204). -/
def execSeq : List Instr → State → Host.Outcome State Fault Refusal
  | [], s => .next s
  | i :: is, s =>
    match exec i s with
    | .next t => if t.clean then execSeq is t else .next t
    | .fault f => .fault f
    | .refused r => .refused r

/-- A pseudo-operation, run as its expansion. -/
def Pseudo.run (p : Pseudo) (s : State) : Host.Outcome State Fault Refusal := execSeq (p.expand s.cfg) s

end Sys2Proof.Machine
end

