-- ==== Sys2Proof/Safety.lean ====
section
/-! DEFINITION. What counts as a safe run: the normal end (43_harness_and_macros.md rule R204), the launch premises
(70_reset_and_hazards.md rule R263), the invariants of the state (10_state.md rule R24), and the bus operations of a script
(10_state.md rule R50). -/

namespace Sys2Proof.Machine

/-! ## Ends and premises -/

/-- THE END OF A RUN (R204): `pc` at the script's length, both marks clear. -/
def State.normalEnd (s : State) : Prop := s.pc = s.script.length ∧ s.clean

/-- `temps_unwritten` (R263). -/
def State.tempsUnwritten (s : State) : Prop := ∀ i, s.temp i = none

/-- `cmode_is(m)` (R263). -/
def State.cmodeIs (s : State) (m : CMode) : Prop := s.cmode = m

/-- `core_quiet` (R263): none of the next `n` turns is CORE's. -/
def State.coreQuiet (s : State) (n : Nat) : Prop := ∀ c, Turn.core c ∉ s.schedule.take n

/-- `no_mode_change` (R263) between two states of a run: no `MODE` event was recorded after the history of the first. -/
def noModeChange (s t : State) : Prop := ∀ m, Event.mode m ∉ t.hist.drop s.hist.length

/-- `owned_by(S)` (R263). -/
def State.ownedBy (s : State) (o : CoreOwned) : Prop := s.cfg.coreOwned = o

/-! ## Invariants -/

/-- The window is in canonical form, and no word holds a bit that has no storage: `R[a] & ~IMPL_MASK(a) = 0` for a storage
word (10_state R24), nothing at all for any other (R46). -/
def State.Inv (s : State) : Prop := s.regs.wf ∧ ∀ a, s.reg a &&& ~~~ (s.cfg.storageMask a) = 0

/-! ## Bus operations -/

/-- The kind of a bus operation. -/
inductive BusKind where
  | read
  | write
  | command
  deriving DecidableEq, Repr

/-- What a bus event says of its operation: kind and word (10_state R50). `CORE` and `MODE` events are no bus events. -/
def Event.busOp : Event → Option (BusKind × Nat)
  | .rd a _ => some (.read, a)
  | .wr a _ => some (.write, a)
  | .cmd _ => some (.command, 1)
  | .core _ _ => none
  | .mode _ => none

/-- The bus operation of an operation of the script (10_state R50): a write to the strobe word is a command. -/
def busOpOf (cfg : Config) : Instr → Option (BusKind × Nat)
  | .rd _ reg => some (.read, reg.val)
  | .wr reg _ => some (if cfg.wordClass reg.val = .strobe then .command else .write, reg.val)
  | _ => none

/-- The bus operation of an operation word. -/
def wordBusOp (cfg : Config) (x : OpWord) : Option (BusKind × Nat) := (decode x).toOption.bind (busOpOf cfg)

/-- The operation word is a WR of word `a`. -/
def writesWord (a : Nat) (x : OpWord) : Bool :=
  match decode x with
  | .ok (.wr reg _) => reg.val = a
  | _ => false

/-- Word `a` lies in the mailbox region. -/
def isMailbox (cfg : Config) (a : Nat) : Bool := cfg.mbxBase ≤ a ∧ a < cfg.mbxBase + cfg.mbxWords

/-! ## Effects -/

/-- `t` is `s` after an operation that wrote exactly these temporaries with these values and completed: everything else,
the other temporaries included, is as in `s`, and `pc` has advanced by one. -/
def WritesExactly (s t : State) (l : List (Nat × Word)) : Prop :=
  t = { s with temps := t.temps, pc := s.pc + 1 }
    ∧ (∀ p ∈ l, t.temp p.1 = some p.2) ∧ ∀ j, j ∉ l.map Prod.fst → t.temp j = s.temp j

/-- The layout and the field map are the defaults of 00_scope R7; base, ownership and binding are free. -/
def Standard (cfg : Config) : Prop :=
  cfg.rsvWords = 1 ∧ cfg.mbxWords = 13 ∧ cfg.iramWords = 2 ∧ cfg.fieldMap = defaultFieldMap

/-- The field at `lsb`, `wm1 + 1` wide, is a field of a 32-bit word and all its bits are implemented in word `a`. -/
def StoredField (cfg : Config) (a : Nat) (lsb wm1 : BitPos) : Prop :=
  lsb.val + wm1.val + 1 ≤ 32 ∧ fieldMask lsb.val (wm1.val + 1) &&& ~~~ (cfg.implMask a) = 0

end Sys2Proof.Machine
end

