-- ==== Sys2Proof/Certificates/Slice0/Obligations.lean ====
section
/-! DEFINITION. The statements about CANCSR for the provers, from the numbered rules of spec/. -/

open Sys2Proof Sys2Proof.Machine

/-! ## Encoding (30_encoding.md) -/

/-- Decoding the word of an operation gives the operation back, with every operand (R101 to R104). -/
def Obligations.DecodeOfEncodeIsTheInstruction : Prop := ∀ i : Instr, decode (encode i) = .ok i

/-- A word that decodes is the word of what it decodes to: no bit of it is ignored (R102, R103). -/
def Obligations.EncodeOfDecodeIsTheWord : Prop := ∀ (x : OpWord) (i : Instr), decode x = .ok i → encode i = x

/-- A row's mask tests the operation number and every must-be-zero field of its format, nothing else, and no word spells two
rows (R102, R103). -/
def Obligations.RowsTestOpAndZeroFieldsAndAreDisjoint : Prop :=
  ∀ r ∈ opTable, ∀ x : OpWord,
    (x &&& r.mask = r.pattern ↔ opField x = r.number ∧ r.op.format.zeroFieldsClear x = true)
    ∧ ∀ r' ∈ opTable, x &&& r.mask = r.pattern → x &&& r'.mask = r'.pattern → r = r'

/-- R106: the words that match no row are those whose `op` is not listed (53 of the 64 values, 0 among them) and those with
a listed `op` and a must-be-zero field set; HOST refuses each, by name, and nothing else changes. -/
def Obligations.WordMatchingNoRowIsRefused : Prop :=
  ((List.finRange 64).filter fun n => opTable.all fun r => r.number ≠ BitVec.ofFin n).length = 53
  ∧ (∀ r ∈ opTable, r.number ≠ 0)
  ∧ ∀ x : OpWord,
    ((∀ r ∈ opTable, x &&& r.mask ≠ r.pattern) ↔
      ¬ ∃ r ∈ opTable, r.number = opField x ∧ r.op.format.zeroFieldsClear x = true)
    ∧ ((∀ r ∈ opTable, r.number ≠ opField x) →
        decode x = .error (.illegalOp (opField x))
        ∧ ∀ s : State, s.fetch = x → hostExec s = .next { s with refused := some (.illegalOp (opField x)) })
    ∧ ((∃ r ∈ opTable, r.number = opField x ∧ r.op.format.zeroFieldsClear x = false) →
        decode x = .error .reservedBits
        ∧ ∀ s : State, s.fetch = x → hostExec s = .next { s with refused := some .reservedBits })

/-- R115: the worked encodings decode and encode as written, and the words listed for the refusal tests are refused with
the reasons listed. -/
def Obligations.WorkedEncodingsReadAsWritten : Prop :=
  (∀ p ∈ ([(0x0400080000000000, .rd 0 2), (0x0804200000000000, .wr 8 1), (0x2080000100000000, .fext 2 0 0 1),
      (0x2404008100000000, .fins 0 1 4 1), (0x2900000000000000, .firPack 4 0), (0x2C10000000000000, .firUnpack 0 4),
      (0x4080000000000000, .encStd 2 0), (0x4508000000000000, .decStd 4 2), (0x4900000000000000, .encExt 4 0),
      (0x4E10000000000000, .decExt 8 4), (0x80000000000007FF, .li 0 0x7FF)] : List (OpWord × Instr)),
    decode p.1 = .ok p.2 ∧ encode p.2 = p.1)
  ∧ (∀ p ∈ ([(0x0000000000000000, .illegalOp 0x00), (0xFC00000000000000, .illegalOp 0x3F),
      (0x0400080000000001, .reservedBits)] : List (OpWord × RefuseReason)), decode p.1 = .error p.2)
  ∧ (∀ p ∈ ([(0x0400880000000000, .outOfWindow 34), (0x0400140000000000, .reservedSlot 5),
      (0x200003C300000000, .fieldSpan 30 4), (0x4B40000000000000, .tempRun), (0x43C0000000000000, .tempRun),
      (0x4C34000000000000, .tempRun)] : List (OpWord × RefuseReason)),
    ((decode p.1).toOption.bind (checkInstr defaultConfig)) = some p.2)

/-- R110: the operands of an operation in assembler order name it back, with its mnemonic of R103. -/
def Obligations.AssemblerLineNamesTheOperation : Prop :=
  ∀ i : Instr, assembleLine i.op (asmOperands i) = some i ∧ ∃ r ∈ opTable, r.op = i.op ∧ r.mnemonic = mnemonicOf i.op

/-! ## Steps (43_harness_and_macros.md, 60_exceptions.md) -/

/-- R204: on HOST's turn, with clean marks and an operation left, a step is `exec` of the operation that `script[pc]`
decodes to, at the state with the turn taken off the schedule. -/
def Obligations.StepRunsTheDecodedInstruction : Prop :=
  ∀ (s : State) (x : OpWord) (i : Instr), (s.schedule.head? = none ∨ s.schedule.head? = some .host) →
    s.refused = none → s.faulted = none → s.script[s.pc]? = some x → decode x = .ok i → step s = exec i s.popTurn

/-- R231: a HOST step completes, is refused or faults; refused or faulted it changes nothing but the mark; then HOST has no
further step, no later step moves `pc` or a temporary, and the run has no normal end; the marks are sticky. -/
def Obligations.HostStepHasThreeOutcomes : Prop :=
  (∀ s : State, ∃ t, hostExec s = .next t ∧
    ((t.pc = s.pc + 1 ∧ t.refused = s.refused ∧ t.faulted = s.faulted)
      ∨ (∃ r, t = { s with refused := some r }) ∨ (∃ f, t = { s with faulted := some f })))
  ∧ (∀ s : State, s.refused ≠ none ∨ s.faulted ≠ none → s.hostDone ≠ none ∧ ¬ s.normalEnd)
  ∧ (∀ s t : State, step s = .next t →
    (s.refused ≠ none ∨ s.faulted ≠ none → t.pc = s.pc ∧ t.temps = s.temps)
    ∧ (s.refused ≠ none → t.refused = s.refused) ∧ (s.faulted ≠ none → t.faulted = s.faulted))

/-- R234 and R204: the machine never refuses to step, and it stops exactly when no turn of CORE is scheduled and HOST has
no further step: a mark is set or the script is used up. (That it stops there, with these fault names, is log 2.) -/
def Obligations.MachineStopsOnlyWhenHostIsDone : Prop :=
  ∀ s : State, (∀ r, step s ≠ .refused r)
    ∧ ((∃ f, step s = .fault f) ↔ s.schedule = [] ∧ (s.refused ≠ none ∨ s.faulted ≠ none ∨ s.script.length ≤ s.pc))
    ∧ (s.schedule = [] → s.normalEnd → step s = .fault .runEnded)

/-- R203: every HOST operation that completes sets `pc` to its successor, and nothing else changes `pc`. An operation
completes on a turn of HOST that finds the marks clear and a script word left, and leaves the marks clear (R204, R231). -/
def Obligations.NothingButCompletionAdvancesPc : Prop :=
  ∀ s t : State, step s = .next t →
    (t.pc = s.pc ∨ t.pc = s.pc + 1)
    ∧ (t.pc = s.pc + 1 ↔
        (∀ c, s.schedule.head? ≠ some (.core c)) ∧ s.refused = none ∧ s.faulted = none ∧ s.pc < s.script.length
          ∧ t.refused = none ∧ t.faulted = none)

/-- R88: the script is changed by no step of either agent. Nor are the parameters: 00_scope R17 makes them no state, and
that the model carries them in State, where no step changes them, is its own choice (log 10). -/
def Obligations.ScriptAndParametersNeverChange : Prop :=
  ∀ s t : State, step s = .next t → t.script = s.script ∧ t.cfg = s.cfg

/-! ## Checks, refusals and faults (30_encoding.md R105, 60_exceptions.md R232, R233) -/

/-- R105: each check refuses exactly under its condition and with its reason. -/
def Obligations.ChecksRefuseWithTheirReasons : Prop :=
  ∀ cfg : Config,
    (∀ (td ts : Temp) (reg : RegIdx),
      checkInstr cfg (.rd td reg) = checkInstr cfg (.wr reg ts)
      ∧ (checkInstr cfg (.rd td reg) = some (.outOfWindow reg.val) ↔ cfg.nwords ≤ reg.val)
      ∧ (checkInstr cfg (.rd td reg) = some (.reservedSlot reg.val) ↔ cfg.wordClass reg.val = .reservedSlot)
      ∧ (checkInstr cfg (.rd td reg) = none ↔ cfg.wordClass reg.val = .storage ∨ cfg.wordClass reg.val = .strobe))
    ∧ (∀ (td ts : Temp) (lsb wm1 : BitPos),
      checkInstr cfg (.fext td ts lsb wm1) = checkInstr cfg (.fins td ts lsb wm1)
      ∧ (checkInstr cfg (.fext td ts lsb wm1) = none ↔ lsb.val + (wm1.val + 1) ≤ 32)
      ∧ (32 < lsb.val + (wm1.val + 1) → checkInstr cfg (.fext td ts lsb wm1) = some (.fieldSpan lsb.val (wm1.val + 1))))
    ∧ (∀ td ts : Temp,
      checkInstr cfg (.firPack td ts) = (if ts.val ≤ 12 then none else some .tempRun)
      ∧ checkInstr cfg (.firUnpack td ts) = (if td.val ≤ 12 then none else some .tempRun)
      ∧ checkInstr cfg (.encStd td ts) = (if td.val ≤ 14 then none else some .tempRun)
      ∧ checkInstr cfg (.decStd td ts) = (if ts.val ≤ 14 then none else some .tempRun)
      ∧ checkInstr cfg (.encExt td ts) = (if td.val ≤ 12 then none else some .tempRun)
      ∧ checkInstr cfg (.decExt td ts) = (if ts.val ≤ 12 then none else some .tempRun))
    ∧ ∀ (td : Temp) (imm : Word), checkInstr cfg (.li td imm) = none

/-- R105, R231: an operation that fails a check is refused with that reason before anything else happens: no temporary is
read, nothing but the mark changes. -/
def Obligations.FailedCheckRefusesFirst : Prop :=
  ∀ (i : Instr) (s : State) (r : RefuseReason), checkInstr s.cfg i = some r → exec i s = .next { s with refused := some r }

/-- R233: the first unwritten temporary in the operation's reading order is reported, and nothing else changes. -/
def Obligations.FirstUnwrittenSourceFaults : Prop :=
  ∀ (i : Instr) (s : State) (j : Nat), checkInstr s.cfg i = none →
    (sources i).find? (fun k => s.temp k = none) = some j → exec i s = .next { s with faulted := some (.unwrittenTemp j) }

/-- Every operation that passes its checks and finds its sources written completes: `pc` advances, the marks stay, every
destination is written (R203, R234). -/
def Obligations.CheckedOperationWithWrittenSourcesCompletes : Prop :=
  ∀ (i : Instr) (s : State), checkInstr s.cfg i = none → (∀ j ∈ sources i, s.temp j ≠ none) →
    ∃ t, exec i s = .next t ∧ t.pc = s.pc + 1 ∧ t.refused = s.refused ∧ t.faulted = s.faulted
      ∧ ∀ j ∈ dests i, t.temp j ≠ none

/-! ## Register Map (40_register_access.md, 20_memory.md) -/

/-- R131: RD of a storage word gives the stored value in its implemented bits and a draw in the others; RD of the command
word gives a draw in all bits; `t[td]`, `pc`, `hist` (and the model's count of draws) are all that changes. -/
def Obligations.ReadGivesStoredBitsAndDraws : Prop :=
  ∀ (td : Temp) (reg : RegIdx) (s : State) (v : Word),
    ((s.cfg.wordClass reg.val = .storage ∧ v =
        (s.reg reg.val &&& s.cfg.implMask reg.val) ||| (Config.draw s.draws &&& ~~~ (s.cfg.implMask reg.val)))
      ∨ (reg.val = 1 ∧ v = Config.draw s.draws)) →
    ∃ t, exec (.rd td reg) s = .next t
      ∧ WritesExactly { s with draws := s.draws + 1, hist := s.hist ++ [.rd reg.val v] } t [(td.val, v)]

/-- R132: RD past the window or of a reserved slot is refused; no temporary, no event, no `pc`. The last two clauses are of
the default parameters only: a window of 34 words (derived from R30, as 00_scope R7 says) with the slots 5, 9, 10, 32, 33.
They rest on the default MBX_WORDS and IRAM_WORDS, general knowledge in the spec itself (log 12). -/
def Obligations.ReadOutsideOrOfSlotIsRefused : Prop :=
  (∀ (td : Temp) (reg : RegIdx) (s : State),
    (s.cfg.nwords ≤ reg.val → exec (.rd td reg) s = .next { s with refused := some (.outOfWindow reg.val) })
    ∧ (s.cfg.wordClass reg.val = .reservedSlot →
        exec (.rd td reg) s = .next { s with refused := some (.reservedSlot reg.val) }))
  ∧ defaultConfig.nwords = 34
  ∧ ∀ a < 256, defaultConfig.wordClass a = .reservedSlot ↔ a ∈ [5, 9, 10, 32, 33]

/-- R135, R77: WR of a storage word stores the implemented bits and records `WR`. Where it does not change the mode under
`mod_rm`, that word, `hist` and `pc` are all that changes. -/
def Obligations.WriteStoresImplementedBits : Prop :=
  ∀ (reg : RegIdx) (ts : Temp) (s : State) (v : Word), s.regs.wf → s.cfg.wordClass reg.val = .storage →
    s.temp ts.val = some v →
    ¬ (s.cfg.cmodeBinding = .modRm ∧ reg.val = 0 ∧ (s.reg 0).getLsbD 0 ≠ v.getLsbD 0) →
    ∃ t, exec (.wr reg ts) s = .next t
      ∧ t = { s with regs := t.regs, hist := s.hist ++ [.wr reg.val v], pc := s.pc + 1 }
      ∧ ∀ a, t.reg a = if a = reg.val then v &&& s.cfg.implMask reg.val else s.reg a

/-- R77, R48: under `mod_rm`, a WR of word 0 that changes bit 0 stores it, redraws every mailbox word in its implemented
bits, records `WR` and then `MODE`, and leaves every other word; `cmode` is then the new bit's, where the bit is implemented. -/
def Obligations.WriteOfModeBitRedrawsMailbox : Prop :=
  ∀ (ts : Temp) (s : State) (v : Word), s.regs.wf → s.temp ts.val = some v → s.cfg.cmodeBinding = .modRm →
    (s.reg 0).getLsbD 0 ≠ v.getLsbD 0 →
    ∃ t, exec (.wr 0 ts) s = .next t
      ∧ t = { s with
          regs := t.regs
          hist := s.hist ++ [.wr 0 v, .mode (modeOfBit (v.getLsbD 0))]
          pc := s.pc + 1
          draws := s.draws + s.cfg.mbxWords }
      ∧ (∀ a, t.reg a =
          if a = 0 then v &&& s.cfg.implMask 0
          else if isMailbox s.cfg a then Config.draw (s.draws + (a - s.cfg.mbxBase)) &&& s.cfg.implMask a else s.reg a)
      ∧ ((s.cfg.implMask 0).getLsbD 0 = true → t.cmode = modeOfBit (v.getLsbD 0))

/-- R138, R46: WR of the command register stores nothing and records `CMD` with all 32 bits written; nothing else changes. -/
def Obligations.CommandWriteIsAStrobe : Prop :=
  ∀ (ts : Temp) (s : State) (v : Word), s.temp ts.val = some v →
    exec (.wr 1 ts) s = .next { s with hist := s.hist ++ [.cmd v], pc := s.pc + 1 }

/-- R136: WR past the window or of a reserved slot is refused, whatever the temporary holds; else an unwritten temporary
faults; nothing is written to the bus and `pc` stays. -/
def Obligations.WriteRefusalsComeBeforeTheFault : Prop :=
  ∀ (reg : RegIdx) (ts : Temp) (s : State),
    (s.cfg.nwords ≤ reg.val → exec (.wr reg ts) s = .next { s with refused := some (.outOfWindow reg.val) })
    ∧ (s.cfg.wordClass reg.val = .reservedSlot →
        exec (.wr reg ts) s = .next { s with refused := some (.reservedSlot reg.val) })
    ∧ (s.cfg.wordClass reg.val = .storage ∨ s.cfg.wordClass reg.val = .strobe → s.temp ts.val = none →
        exec (.wr reg ts) s = .next { s with faulted := some (.unwrittenTemp ts.val) })

/-- R75: on the bare port an offset that is no multiple of 4, or a width other than 32 bits, is refused; the offset an
operation uses, 4 times the word index, never is. -/
def Obligations.BarePortRefusesMisaligned : Prop :=
  (∀ (off : BusOffset) (size : Nat) (v : Word) (s : State), off.toNat % 4 ≠ 0 ∨ size ≠ 4 →
    memRead off size s = .error (.refuse .misaligned) ∧ memWrite off size v s = .error (.refuse .misaligned))
  ∧ ∀ (reg : RegIdx) (v : Word) (s : State), (busOffset reg).toNat = 4 * reg.val
    ∧ memRead (busOffset reg) 4 s ≠ .error (.refuse .misaligned)
    ∧ memWrite (busOffset reg) 4 v s ≠ .error (.refuse .misaligned)

/-- R140, the read-back law: a storage word written by WR and read by RD, with no step of CORE and no write of the word in
between (nor, for a mailbox word, a change of mode), reads as written in its implemented bits. -/
def Obligations.WrittenWordReadsBackWhileCoreIsQuiet : Prop :=
  ∀ (a : RegIdx) (ts td : Temp) (v : Word) (n : Nat) (s u t w : State), s.regs.wf →
    s.cfg.wordClass a.val = .storage → s.temp ts.val = some v → exec (.wr a ts) s = .next u →
    Sys2Proof.core.run n u = .next t → u.coreQuiet n →
    (∀ k x, u.pc ≤ k → k < t.pc → u.script[k]? = some x → writesWord a.val x = false) →
    (isMailbox s.cfg a.val = true → noModeChange u t) →
    exec (.rd td a) t = .next w →
    ∃ r, w.temp td.val = some r ∧ r &&& s.cfg.implMask a.val = v &&& s.cfg.implMask a.val

/-- R73: byte offset `4a + k` of the window names bits `8k+7 : 8k` of word `a`. -/
def Obligations.WindowBytesAreLittleEndian : Prop :=
  ∀ (m : Memory) (a k : Nat) (v : Word), m.wf → k < 4 →
    (m.writeWord a v).readByte (4 * a + k) = v.extractLsb' (8 * k) 8
    ∧ m.readByte (4 * a + k) = (m.readWord a).extractLsb' (8 * k) 8

/-! ## Bit-Field Accessors (41_bitfield.md) -/

/-- R150: FEXT refuses a field past bit 31, faults on an unwritten source, and else gives the field zero-extended. -/
def Obligations.FextGivesTheField : Prop :=
  ∀ (td ts : Temp) (lsb wm1 : BitPos) (s : State),
    (32 < lsb.val + (wm1.val + 1) →
      exec (.fext td ts lsb wm1) s = .next { s with refused := some (.fieldSpan lsb.val (wm1.val + 1)) })
    ∧ (lsb.val + (wm1.val + 1) ≤ 32 → s.temp ts.val = none →
      exec (.fext td ts lsb wm1) s = .next { s with faulted := some (.unwrittenTemp ts.val) })
    ∧ (lsb.val + (wm1.val + 1) ≤ 32 → ∀ x, s.temp ts.val = some x →
      ∃ t, exec (.fext td ts lsb wm1) s = .next t
        ∧ WritesExactly s t [(td.val, (x.extractLsb' lsb.val (wm1.val + 1)).setWidth 32)])

/-- R153, R154: FINS refuses a field past bit 31, faults on an unwritten `td`, then `ts`, and else changes the field's bits
to the low bits of the value and no other bit of `t[td]`. -/
def Obligations.FinsChangesOnlyTheField : Prop :=
  ∀ (td ts : Temp) (lsb wm1 : BitPos) (s : State),
    (32 < lsb.val + (wm1.val + 1) →
      exec (.fins td ts lsb wm1) s = .next { s with refused := some (.fieldSpan lsb.val (wm1.val + 1)) })
    ∧ (lsb.val + (wm1.val + 1) ≤ 32 → s.temp td.val = none →
      exec (.fins td ts lsb wm1) s = .next { s with faulted := some (.unwrittenTemp td.val) })
    ∧ (lsb.val + (wm1.val + 1) ≤ 32 → s.temp td.val ≠ none → s.temp ts.val = none →
      exec (.fins td ts lsb wm1) s = .next { s with faulted := some (.unwrittenTemp ts.val) })
    ∧ (lsb.val + (wm1.val + 1) ≤ 32 → ∀ old val, s.temp td.val = some old → s.temp ts.val = some val →
      ∃ t new, exec (.fins td ts lsb wm1) s = .next t ∧ WritesExactly s t [(td.val, new)]
        ∧ ∀ j < 32, new.getLsbD j =
            if lsb.val ≤ j ∧ j < lsb.val + (wm1.val + 1) then val.getLsbD (j - lsb.val) else old.getLsbD j)

/-- R156: FIR.PACK gives `zext_32(ff[0] ++ rtr[0] ++ unk[1:0] ++ dlc[3:0])`. -/
def Obligations.FirPackLaysOutTheRecord : Prop :=
  ∀ (td ts : Temp) (s : State) (dlc unk rtr ff : Word), ts.val ≤ 12 →
    s.temp ts.val = some dlc → s.temp (ts.val + 1) = some unk → s.temp (ts.val + 2) = some rtr →
    s.temp (ts.val + 3) = some ff →
    ∃ t, exec (.firPack td ts) s = .next t
      ∧ WritesExactly s t [(td.val,
          (ff.extractLsb' 0 1 ++ rtr.extractLsb' 0 1 ++ unk.extractLsb' 0 2 ++ dlc.extractLsb' 0 4).setWidth 32)]

/-- R158: FIR.UNPACK gives `x[3:0]`, `x[5:4]`, `x[6]`, `x[7]` in four consecutive temporaries. -/
def Obligations.FirUnpackSplitsTheRecord : Prop :=
  ∀ (td ts : Temp) (s : State) (x : Word), td.val ≤ 12 → s.temp ts.val = some x →
    ∃ t, exec (.firUnpack td ts) s = .next t
      ∧ WritesExactly s t [(td.val, (x.extractLsb' 0 4).setWidth 32), (td.val + 1, (x.extractLsb' 4 2).setWidth 32),
          (td.val + 2, (x.extractLsb' 6 1).setWidth 32), (td.val + 3, (x.extractLsb' 7 1).setWidth 32)]

/-- R159 (c): unpack after pack gives each input cut to its field; pack after unpack gives the low byte. -/
def Obligations.FirPackAndUnpackRoundTrip : Prop :=
  (∀ (td ts td' : Temp) (s : State) (dlc unk rtr ff : Word), ts.val ≤ 12 → td'.val ≤ 12 →
    s.temp ts.val = some dlc → s.temp (ts.val + 1) = some unk → s.temp (ts.val + 2) = some rtr →
    s.temp (ts.val + 3) = some ff →
    ∃ t u, exec (.firPack td ts) s = .next t ∧ exec (.firUnpack td' td) t = .next u
      ∧ u.temp td'.val = some (BitVec.ofNat 32 (dlc.toNat % 16)) ∧ u.temp (td'.val + 1) = some (BitVec.ofNat 32 (unk.toNat % 4))
      ∧ u.temp (td'.val + 2) = some (BitVec.ofNat 32 (rtr.toNat % 2))
      ∧ u.temp (td'.val + 3) = some (BitVec.ofNat 32 (ff.toNat % 2)))
  ∧ (∀ (td ts td' : Temp) (s : State) (x : Word), td.val ≤ 12 → s.temp ts.val = some x →
    ∃ t u, exec (.firUnpack td ts) s = .next t ∧ exec (.firPack td' td) t = .next u
      ∧ u.temp td'.val = some (x &&& 0xFF))

/-! ## Identifier Codec (42_id_codec.md) -/

/-- R180, R184: ENC.STD gives lanes `id[10:3]` and `id[2:0] ++ 00000`. -/
def Obligations.EncStdGivesTwoLanes : Prop :=
  ∀ (td ts : Temp) (s : State) (id : Word), td.val ≤ 14 → s.temp ts.val = some id →
    ∃ t, exec (.encStd td ts) s = .next t
      ∧ WritesExactly s t [(td.val, (id.extractLsb' 3 8).setWidth 32), (td.val + 1, (id.extractLsb' 0 3 ++ 0#5).setWidth 32)]

/-- R180, R183, R185: DEC.STD joins bits 7:0 of lane 0 and bits 7:5 of lane 1. -/
def Obligations.DecStdJoinsTwoLanes : Prop :=
  ∀ (td ts : Temp) (s : State) (l0 l1 : Word), ts.val ≤ 14 → s.temp ts.val = some l0 → s.temp (ts.val + 1) = some l1 →
    ∃ t, exec (.decStd td ts) s = .next t
      ∧ WritesExactly s t [(td.val, (l0.extractLsb' 0 8 ++ l1.extractLsb' 5 3).setWidth 32)]

/-- R181, R186: ENC.EXT gives lanes `id[28:21]`, `id[20:13]`, `id[12:5]` and `id[4:0] ++ 000`. -/
def Obligations.EncExtGivesFourLanes : Prop :=
  ∀ (td ts : Temp) (s : State) (id : Word), td.val ≤ 12 → s.temp ts.val = some id →
    ∃ t, exec (.encExt td ts) s = .next t
      ∧ WritesExactly s t [(td.val, (id.extractLsb' 21 8).setWidth 32), (td.val + 1, (id.extractLsb' 13 8).setWidth 32),
          (td.val + 2, (id.extractLsb' 5 8).setWidth 32), (td.val + 3, (id.extractLsb' 0 5 ++ 0#3).setWidth 32)]

/-- R181, R183, R187: DEC.EXT joins bits 7:0 of lanes 0, 1, 2 and bits 7:3 of lane 3. -/
def Obligations.DecExtJoinsFourLanes : Prop :=
  ∀ (td ts : Temp) (s : State) (l0 l1 l2 l3 : Word), ts.val ≤ 12 → s.temp ts.val = some l0 →
    s.temp (ts.val + 1) = some l1 → s.temp (ts.val + 2) = some l2 → s.temp (ts.val + 3) = some l3 →
    ∃ t, exec (.decExt td ts) s = .next t
      ∧ WritesExactly s t [(td.val,
          (l0.extractLsb' 0 8 ++ l1.extractLsb' 0 8 ++ l2.extractLsb' 0 8 ++ l3.extractLsb' 3 5).setWidth 32)]

/-- R188, with no register in between: decoding what was encoded gives the identifier modulo 2^11, or 2^29; so the
identifier itself when it is that narrow. -/
def Obligations.DecodeAfterEncodeIsTheIdentifier : Prop :=
  ∀ (td ts td' : Temp) (s : State) (id : Word), s.temp ts.val = some id →
    (td.val ≤ 14 → ∃ t u, exec (.encStd td ts) s = .next t ∧ exec (.decStd td' td) t = .next u
      ∧ u.temp td'.val = some (BitVec.ofNat 32 (id.toNat % 2 ^ 11))
      ∧ (id.toNat ≤ 0x7FF → u.temp td'.val = some id))
    ∧ (td.val ≤ 12 → ∃ t u, exec (.encExt td ts) s = .next t ∧ exec (.decExt td' td) t = .next u
      ∧ u.temp td'.val = some (BitVec.ofNat 32 (id.toNat % 2 ^ 29))
      ∧ (id.toNat ≤ 0x1FFFFFFF → u.temp td'.val = some id))

/-- R189: encoding what was decoded gives the lanes with their padding cleared; so the lanes themselves when they are
canonical. -/
def Obligations.EncodeAfterDecodeClearsThePadding : Prop :=
  (∀ (td ts td' : Temp) (s : State) (l0 l1 : Word), ts.val ≤ 14 → td'.val ≤ 14 → s.temp ts.val = some l0 →
    s.temp (ts.val + 1) = some l1 →
    ∃ t u, exec (.decStd td ts) s = .next t ∧ exec (.encStd td' td) t = .next u
      ∧ u.temp td'.val = some (l0 &&& 0xFF) ∧ u.temp (td'.val + 1) = some (l1 &&& 0xE0))
  ∧ (∀ (td ts td' : Temp) (s : State) (l0 l1 l2 l3 : Word), ts.val ≤ 12 → td'.val ≤ 12 → s.temp ts.val = some l0 →
    s.temp (ts.val + 1) = some l1 → s.temp (ts.val + 2) = some l2 → s.temp (ts.val + 3) = some l3 →
    ∃ t u, exec (.decExt td ts) s = .next t ∧ exec (.encExt td' td) t = .next u
      ∧ u.temp td'.val = some (l0 &&& 0xFF) ∧ u.temp (td'.val + 1) = some (l1 &&& 0xFF)
      ∧ u.temp (td'.val + 2) = some (l2 &&& 0xFF) ∧ u.temp (td'.val + 3) = some (l3 &&& 0xF8))

/-- R190: DEC.STD of the first two lanes of an extended identifier gives its top 11 bits, `id[28:18]`. -/
def Obligations.StandardDecodeOfExtendedLanes : Prop :=
  ∀ (td ts td' : Temp) (s : State) (id : Word), td.val ≤ 12 → s.temp ts.val = some id →
    ∃ t u, exec (.encExt td ts) s = .next t ∧ exec (.decStd td' td) t = .next u
      ∧ u.temp td'.val = some ((id.extractLsb' 18 11).setWidth 32)

/-! ## Harness (43_harness_and_macros.md) -/

/-- R200: LI always completes and gives the immediate as it stands. -/
def Obligations.LiLoadsTheImmediate : Prop :=
  ∀ (td : Temp) (imm : Word) (s : State), ∃ t, exec (.li td imm) s = .next t ∧ WritesExactly s t [(td.val, imm)]

/-! ## CORE (10_state.md R47, R48) -/

/-- R47, `CoreWrite(a, v)`: of a word CORE owns, it stores the implemented bits and records `CORE`; under `mod_rm` a change
of `R[0][0]` also redraws the mailbox and records `MODE` (R48). Of any other word the turn passes with no effect (log 4). -/
def Obligations.CoreWriteChangesAnOwnedWord : Prop :=
  ∀ (s : State) (a : Nat) (v w : Word) (rest : List Turn), s.regs.wf → s.schedule = .core (.coreWrite a v) :: rest →
    w = v &&& s.cfg.implMask a →
    (s.cfg.owns a = true →
      ¬ (s.cfg.cmodeBinding = .modRm ∧ a = 0 ∧ (s.reg 0).getLsbD 0 ≠ w.getLsbD 0) →
      ∃ t, step s = .next t ∧ t = { s with schedule := rest, regs := t.regs, hist := s.hist ++ [.core a w] }
        ∧ ∀ b, t.reg b = if b = a then w else s.reg b)
    ∧ (s.cfg.owns a = true →
      (s.cfg.cmodeBinding = .modRm ∧ a = 0 ∧ (s.reg 0).getLsbD 0 ≠ w.getLsbD 0) →
      ∃ t, step s = .next t
        ∧ t = { s with
            schedule := rest
            regs := t.regs
            draws := s.draws + s.cfg.mbxWords
            hist := s.hist ++ [.core a w, .mode (modeOfBit (w.getLsbD 0))] }
        ∧ ∀ b, t.reg b = if b = a then w
            else if isMailbox s.cfg b then Config.draw (s.draws + (b - s.cfg.mbxBase)) &&& s.cfg.implMask b else s.reg b)
    ∧ (s.cfg.owns a = false → step s = .next { s with schedule := rest })

/-- R47, `CoreMode(m)`: under `free`, to another mode, it sets `cmode`, redraws every mailbox word in its implemented bits
and records `MODE`. Under `mod_rm`, or to the mode there is, the turn passes with no effect (log 4). -/
def Obligations.CoreModeRedrawsMailbox : Prop :=
  ∀ (s : State) (m : CMode) (rest : List Turn), s.regs.wf → s.schedule = .core (.coreMode m) :: rest →
    (s.cfg.cmodeBinding = .free → m ≠ s.cmode →
      ∃ t, step s = .next t ∧ t.cmode = m
        ∧ t = { s with
            schedule := rest
            cmodeIn := m
            regs := t.regs
            draws := s.draws + s.cfg.mbxWords
            hist := s.hist ++ [.mode m] }
        ∧ ∀ a, t.reg a =
            if isMailbox s.cfg a then Config.draw (s.draws + (a - s.cfg.mbxBase)) &&& s.cfg.implMask a else s.reg a)
    ∧ (s.cfg.cmodeBinding = .modRm ∨ m = s.cmode → step s = .next { s with schedule := rest })

/-- R48: under `free` only a CORE step changes `cmode`, and it is `CoreMode` to the new mode; under `mod_rm` `cmode` is
RESET exactly when `R[0][0] = 1`. -/
def Obligations.ControllerModeIsNotHosts : Prop :=
  (∀ s t : State, step s = .next t → s.cfg.cmodeBinding = .free → t.cmode ≠ s.cmode →
    s.schedule.head? = some (.core (.coreMode t.cmode)))
  ∧ ∀ s : State, s.cfg.cmodeBinding = .modRm → (s.cmode = .reset ↔ (s.reg 0).getLsbD 0 = true)

/-- R16, R47: a turn of CORE always steps, whatever HOST's marks and `pc`, and leaves `pc`, temporaries, marks, script and
parameters alone; only storage words CORE owns or words of the mailbox region change. -/
def Obligations.CoreTurnLeavesHostAlone : Prop :=
  ∀ (s : State) (c : CoreStep) (rest : List Turn), s.regs.wf → s.schedule = .core c :: rest →
    ∃ t, step s = .next t
      ∧ t.pc = s.pc ∧ t.temps = s.temps ∧ t.refused = s.refused ∧ t.faulted = s.faulted ∧ t.script = s.script
      ∧ t.cfg = s.cfg ∧ t.schedule = rest
      ∧ ∀ a, t.reg a ≠ s.reg a → s.cfg.wordClass a = .storage ∧ (s.cfg.owns a = true ∨ isMailbox s.cfg a = true)

/-! ## Invariants and whole runs -/

/-- R24: every step keeps the window canonical and free of bits that have no storage. -/
def Obligations.EveryStepKeepsTheInvariant : Prop := ∀ s t : State, s.Inv → step s = .next t → t.Inv

/-- The state after reset meets the invariant. -/
def Obligations.ResetMeetsTheInvariant : Prop := State.reset.Inv

/-- R60, R260: after power-on with any parameters, script, schedule, register contents and mode, the window meets the
invariant and holds those contents in its storage; temporaries are unwritten, `pc` is 0, the history empty, the marks clear. -/
def Obligations.PowerOnStatesAreAnyContents : Prop :=
  ∀ (cfg : Config) (script : List OpWord) (schedule : List Turn) (r : List Word) (m : CMode) (s : State),
    s = State.powerOn cfg script schedule r m →
    s.Inv ∧ (∀ a, s.reg a = (r[a]?).getD 0 &&& cfg.storageMask a) ∧ s.tempsUnwritten ∧ s.pc = 0 ∧ s.hist = []
      ∧ s.refused = none ∧ s.faulted = none ∧ (cfg.cmodeBinding = .free → s.cmode = m)
      ∧ s.cfg = cfg ∧ s.script = script ∧ s.schedule = schedule

/-- What R60 gives of the reset state: temporaries unwritten, `pc` 0, history empty, marks clear. -/
def Obligations.ResetLeavesHarnessEmpty : Prop :=
  (∀ i, State.reset.temp i = none) ∧ State.reset.pc = 0 ∧ State.reset.hist = [] ∧ State.reset.refused = none
    ∧ State.reset.faulted = none

/-- R50, R276: over any run, the bus events added to the history are the bus operations of the script words from the old
`pc` to the new, one for one and in order. -/
def Obligations.BusEventsFollowTheScript : Prop :=
  ∀ (n : Nat) (s t : State), Sys2Proof.core.run n s = .next t →
    t.hist.filterMap Event.busOp =
      s.hist.filterMap Event.busOp ++ ((s.script.take t.pc).drop s.pc).filterMap (wordBusOp s.cfg)

/-- R83 (1): over any run with no turn of CORE, no WR of word `a` and no mode change that redraws it, word `a` holds. -/
def Obligations.WordHoldsUntilAStepChangesIt : Prop :=
  ∀ (a n : Nat) (s t : State), s.regs.wf → Sys2Proof.core.run n s = .next t → s.coreQuiet n →
    (∀ k x, s.pc ≤ k → k < t.pc → s.script[k]? = some x → writesWord a x = false) →
    (isMailbox s.cfg a = true → noModeChange s t) → t.reg a = s.reg a

/-! ## Frames -/

/-- The operations that touch no bus (41_bitfield: FEXT, FINS, FIR.PACK, FIR.UNPACK; 42_id_codec: ENC.STD, DEC.STD, ENC.EXT,
DEC.EXT; 43_harness_and_macros: LI), each by its own section, change no byte of the window, no event, no mode, no draw, no
turn, and no temporary but their destinations. The marks are how a refusal or a fault is held (60_exceptions, 2). -/
def Obligations.PureOperationsTouchOnlyTheirTemps : Prop :=
  ∀ (i : Instr) (s t : State), busWord i = none → exec i s = .next t →
    (∀ j, j ∉ dests i → t.temp j = s.temp j)
    ∧ t = { s with temps := t.temps, pc := t.pc, refused := t.refused, faulted := t.faulted }
    ∧ ∀ k, t.regs.readByte k = s.regs.readByte k

/-- RD changes no byte of the window and no temporary but `td`; at most one event is added, a read of its word (R131). -/
def Obligations.ReadFrame : Prop :=
  ∀ (td : Temp) (reg : RegIdx) (s t : State), exec (.rd td reg) s = .next t →
    (∀ j, j ≠ td.val → t.temp j = s.temp j)
    ∧ t = { s with temps := t.temps, pc := t.pc, hist := t.hist, draws := t.draws, refused := t.refused, faulted := t.faulted }
    ∧ (∀ k, t.regs.readByte k = s.regs.readByte k)
    ∧ (t.hist = s.hist ∨ ∃ v, t.hist = s.hist ++ [.rd reg.val v])

/-- WR changes no temporary (R139 (d)) and no byte of the window outside the stored word, `4 * reg` to `4 * reg + 3`, but
for the mailbox region where it changes the mode under `mod_rm` (R77); to the command register it changes no byte. -/
def Obligations.WriteFrame : Prop :=
  ∀ (reg : RegIdx) (ts : Temp) (s t : State), s.regs.wf → exec (.wr reg ts) s = .next t →
    t.temps = s.temps
    ∧ t = { s with regs := t.regs, pc := t.pc, hist := t.hist, draws := t.draws, refused := t.refused, faulted := t.faulted }
    ∧ (∀ k, (k < 4 * reg.val ∨ 4 * reg.val + 4 ≤ k) →
        ¬ (s.cfg.cmodeBinding = .modRm ∧ reg.val = 0 ∧ s.temp ts.val ≠ none
          ∧ (s.reg 0).getLsbD 0 ≠ ((s.temp ts.val).getD 0).getLsbD 0 ∧ isMailbox s.cfg (k / 4) = true) →
        t.regs.readByte k = s.regs.readByte k)
    ∧ (reg.val = 1 → t.regs = s.regs)

/-! ## Layout, views and readings -/

/-- R23, R33 to R45, V9: the default field map is well formed for every register and view, and gives the IMPL_MASKs listed.
R47, R30: the preset `ALL` owns every storage word, the preset `GK` the words of R47's list. -/
def Obligations.DefaultParametersAreAsListed : Prop :=
  (∀ r ∈ defaultFieldMap.map (·.reg), defaultConfig.fieldsOk r = true)
  ∧ defaultConfig.implMask 0 = 0x1F ∧ defaultConfig.implMask 3 = 0x1EF ∧ defaultConfig.implMask 4 = 0x1EF
  ∧ defaultConfig.implMask 31 = 0xEF
  ∧ (∀ a ∈ [2, 6, 7, 8, 11, 12, 13, 14, 15, 16, 17, 18, 19, 20, 21, 22, 23, 24, 25, 26, 27, 28, 29, 30],
      defaultConfig.implMask a = 0xFF)
  ∧ ∀ a < 256,
    (defaultConfig.owns a = true ↔ defaultConfig.wordClass a = .storage)
    ∧ ({ defaultConfig with coreOwned := .gk }.owns a = true ↔
        a ∈ [0, 2, 3, 11, 12, 14, 15, 16, 17, 18, 19, 20, 21, 22, 23, 24, 25, 26, 27, 28, 29, 30])

/-- R30, R32, R7: the general size of the window, the place of the mailbox region, and that a view name reaches the mailbox
word of its row; a view name is only another name of the word. -/
def Obligations.WindowLayout : Prop :=
  ∀ cfg : Config, cfg.rsvWords = 1 →
    cfg.nwords = 16 + cfg.mbxWords + 3 + cfg.iramWords
    ∧ cfg.mbxBase = 16
    ∧ (∀ k < cfg.mbxWords, cfg.wordClass (16 + k) = .storage ∧ cfg.wordIndex (.mbx k) = some (16 + k))
    ∧ (∀ (v : View) (k : Nat) (r : Reg), k < cfg.mbxWords → v.item k = some r → cfg.wordIndex r = some (16 + k))
    ∧ cfg.wordIndex .rmc = some (16 + cfg.mbxWords) ∧ cfg.wordIndex .rbsa = some (17 + cfg.mbxWords)
    ∧ cfg.wordIndex .cdr = some (18 + cfg.mbxWords)
    ∧ (∀ a, cfg.wordClass a = .outside ↔ cfg.nwords ≤ a)
    ∧ (∀ a, cfg.wordClass a = .strobe ↔ a = 1)

/-- R161: for any enumeration whose members have different values, decoding a member's value names it, and a value of no
member is returned raw. -/
def Obligations.EnumDecodeNamesOrReturnsRaw : Prop :=
  ∀ (α : Type) (members : List α) (enc : α → Nat),
    (∀ m ∈ members, ∀ m' ∈ members, enc m = enc m' → m = m') →
    (∀ m ∈ members, enumDecode members enc (enc m) = .named m)
    ∧ ∀ v, (∀ m ∈ members, enc m ≠ v) → enumDecode members enc v = .raw v

/-- R167: the sources decoded from a word are those whose bit is 1; bit 4 and bits 9 and above name none; a mask of a set
of sources decodes to the set. -/
def Obligations.InterruptMaskIsASetOfSources : Prop :=
  (∀ (v : Word) (i : IrqSource), i ∈ decodeIrq v ↔ v.getLsbD i.bit = true)
  ∧ (∀ v : Word, decodeIrq v = decodeIrq (v &&& 0x1EF))
  ∧ (∀ (l : List IrqSource) (i : IrqSource), i ∈ decodeIrq (encodeIrq l) ↔ i ∈ l)

/-! ## Pseudo-operations (43_harness_and_macros.md R206 to R215), `core_quiet` throughout -/

/-- R206: MOV copies a temporary. R207: FLD.RD of a named field of a storage word gives the stored field, with one `RD`
event. -/
def Obligations.MovCopiesAndFieldReadGivesTheStoredField : Prop :=
  (∀ (td ts : Temp) (s : State) (x : Word), s.refused = none → s.faulted = none → s.temp ts.val = some x →
    ∃ t, (Pseudo.mov td ts).run s = .next t ∧ WritesExactly s t [(td.val, x)])
  ∧ ∀ (td : Temp) (reg : RegIdx) (lsb wm1 : BitPos) (s : State), s.refused = none → s.faulted = none →
    s.cfg.wordClass reg.val = .storage → StoredField s.cfg reg.val lsb wm1 →
    ∃ t v, (Pseudo.fldRd td reg lsb wm1).run s = .next t
      ∧ t.temp td.val = some (fieldGet (s.reg reg.val) lsb.val (wm1.val + 1))
      ∧ t.hist = s.hist ++ [.rd reg.val v] ∧ t.regs = s.regs ∧ t.pc = s.pc + 2
      ∧ t.refused = none ∧ t.faulted = none

/-- R208: FLD.WR of a named field of a storage word changes that field to the value cut to its width and no other stored
bit of the word; the bus sees a read and then a write of the word read with the field put in. -/
def Obligations.FieldWriteChangesOneField : Prop :=
  ∀ (reg : RegIdx) (lsb wm1 : BitPos) (ts : Temp) (s : State) (v : Word), s.refused = none → s.faulted = none → s.Inv →
    s.cfg.wordClass reg.val = .storage → StoredField s.cfg reg.val lsb wm1 → ts.val ≠ 15 → s.temp ts.val = some v →
    ∃ t x rest, (Pseudo.fldWr reg lsb wm1 ts).run s = .next t
      ∧ t.reg reg.val = fieldPut (s.reg reg.val) lsb.val (wm1.val + 1) v
      ∧ t.hist = s.hist ++ ([.rd reg.val x, .wr reg.val (fieldPut x lsb.val (wm1.val + 1) v)] ++ rest)
      ∧ (∀ e ∈ rest, e.busOp = none) ∧ t.refused = none ∧ t.faulted = none

/-- R209: FLD.WRC records exactly one event, `CMD` with the field's bits and zeros elsewhere, and reads nothing. -/
def Obligations.CommandFieldWriteIsOneStrobe : Prop :=
  ∀ (lsb wm1 : BitPos) (ts : Temp) (s : State) (v : Word), s.refused = none → s.faulted = none →
    lsb.val + (wm1.val + 1) ≤ 32 → ts.val ≠ 15 → s.temp ts.val = some v →
    ∃ t, (Pseudo.fldWrc lsb wm1 ts).run s = .next t
      ∧ t.hist = s.hist ++ [.cmd ((v &&& ones (wm1.val + 1)) <<< lsb.val)] ∧ t.regs = s.regs
      ∧ t.refused = none ∧ t.faulted = none

/-- R210, R211: FIR.WR writes the packed record to word 16, and FIR.RD gives its four fields back. -/
def Obligations.FrameInfoWriteAndRead : Prop :=
  ∀ (ts : Temp) (s : State) (dlc unk rtr ff w : Word), s.refused = none → s.faulted = none → s.regs.wf → Standard s.cfg →
    ts.val ≤ 11 → s.temp ts.val = some dlc → s.temp (ts.val + 1) = some unk → s.temp (ts.val + 2) = some rtr →
    s.temp (ts.val + 3) = some ff →
    w = (ff.extractLsb' 0 1 ++ rtr.extractLsb' 0 1 ++ unk.extractLsb' 0 2 ++ dlc.extractLsb' 0 4).setWidth 32 →
    ∃ t, (Pseudo.firWr ts).run s = .next t ∧ t.hist = s.hist ++ [.wr 16 w] ∧ t.reg 16 = w
      ∧ ∀ td : Temp, td.val ≤ 11 → ∃ u x, (Pseudo.firRd td).run t = .next u ∧ u.hist = t.hist ++ [.rd 16 x]
        ∧ u.temp td.val = some (BitVec.ofNat 32 (dlc.toNat % 16)) ∧ u.temp (td.val + 1) = some (BitVec.ofNat 32 (unk.toNat % 4))
        ∧ u.temp (td.val + 2) = some (BitVec.ofNat 32 (rtr.toNat % 2))
        ∧ u.temp (td.val + 3) = some (BitVec.ofNat 32 (ff.toNat % 2))

/-- R212, R213: ID.WR.STD writes the lanes to words 17 and 18 in this order, and ID.RD.STD then gives the identifier
modulo 2^11. -/
def Obligations.StandardIdThroughTheRegisters : Prop :=
  ∀ (ts : Temp) (s : State) (id l0 l1 : Word), s.refused = none → s.faulted = none → s.regs.wf → Standard s.cfg →
    ts.val ≤ 13 → s.temp ts.val = some id →
    l0 = (id.extractLsb' 3 8).setWidth 32 → l1 = (id.extractLsb' 0 3 ++ 0#5).setWidth 32 →
    ∃ t, (Pseudo.idWrStd ts).run s = .next t ∧ t.hist = s.hist ++ [.wr 17 l0, .wr 18 l1] ∧ t.reg 17 = l0 ∧ t.reg 18 = l1
      ∧ ∀ td : Temp, ∃ u x y, (Pseudo.idRdStd td).run t = .next u ∧ u.hist = t.hist ++ [.rd 17 x, .rd 18 y]
        ∧ u.temp td.val = some (BitVec.ofNat 32 (id.toNat % 2 ^ 11))

/-- R214, R215: ID.WR.EXT writes the lanes to words 17 to 20 in this order, and ID.RD.EXT then gives the identifier modulo
2^29. -/
def Obligations.ExtendedIdThroughTheRegisters : Prop :=
  ∀ (ts : Temp) (s : State) (id l0 l1 l2 l3 : Word), s.refused = none → s.faulted = none → s.regs.wf → Standard s.cfg →
    ts.val ≤ 11 → s.temp ts.val = some id →
    l0 = (id.extractLsb' 21 8).setWidth 32 → l1 = (id.extractLsb' 13 8).setWidth 32 →
    l2 = (id.extractLsb' 5 8).setWidth 32 → l3 = (id.extractLsb' 0 5 ++ 0#3).setWidth 32 →
    ∃ t, (Pseudo.idWrExt ts).run s = .next t ∧ t.hist = s.hist ++ [.wr 17 l0, .wr 18 l1, .wr 19 l2, .wr 20 l3]
      ∧ t.reg 17 = l0 ∧ t.reg 18 = l1 ∧ t.reg 19 = l2 ∧ t.reg 20 = l3
      ∧ ∀ td : Temp, ∃ u x y z q, (Pseudo.idRdExt td).run t = .next u
        ∧ u.hist = t.hist ++ [.rd 17 x, .rd 18 y, .rd 19 z, .rd 20 q]
        ∧ u.temp td.val = some (BitVec.ofNat 32 (id.toNat % 2 ^ 29))
end

