-- ==== Sys2Proof/Laws/Bits.lean ====
section
/-! SUPPORT. The field and lane functions bit by bit (00_scope.md R12, 41_bitfield.md R160, 42_id_codec.md R180 to R183). -/

namespace Sys2Proof.Machine

theorem getLsbD_ones (w j : Nat) : (ones w).getLsbD j = (decide (j < w) && decide (j < 32)) := by
  simp only [ones, BitVec.getLsbD_ofNat, Nat.testBit_two_pow_sub_one, Bool.and_comm]

theorem getLsbD_fieldMask (l w j : Nat) :
    (fieldMask l w).getLsbD j = (decide (l ≤ j ∧ j < l + w) && decide (j < 32)) := by
  simp only [fieldMask, BitVec.getLsbD_shiftLeft, getLsbD_ones]
  by_cases h32 : j < 32
  · by_cases hl : j < l
    · simp [hl, show ¬ l ≤ j by omega]
    · simp [h32, hl, show l ≤ j by omega, show j - l < 32 by omega, show j - l < w ↔ j < l + w by omega]
  · simp [h32]

/-- Bit `j` of a field got is bit `lsb + j` of the word, and zero above the width. -/
theorem getLsbD_fieldGet (x : Word) (l w j : Nat) :
    (fieldGet x l w).getLsbD j = (decide (j < w) && x.getLsbD (l + j)) := by
  simp only [fieldGet, BitVec.getLsbD_and, BitVec.getLsbD_ushiftRight, getLsbD_ones]
  by_cases h32 : j < 32
  · simp [h32, Bool.and_comm]
  · simp [h32, BitVec.getLsbD_of_ge x (l + j) (by omega)]

/-- Bit `j` of a word with a field put is the value's inside the field and the word's outside. -/
theorem getLsbD_fieldPut (x v : Word) (l w j : Nat) (hj : j < 32) :
    (fieldPut x l w v).getLsbD j = if l ≤ j ∧ j < l + w then v.getLsbD (j - l) else x.getLsbD j := by
  simp only [fieldPut, BitVec.getLsbD_or, BitVec.getLsbD_and, BitVec.getLsbD_not, BitVec.getLsbD_shiftLeft,
    getLsbD_fieldMask, getLsbD_ones, hj]
  by_cases hl : l ≤ j <;> by_cases hw : j < l + w
  · simp [hl, hw, show j - l < w by omega, show j - l < 32 by omega]
  · simp [hl, hw, show ¬ j - l < w by omega]
  · simp [hl, show j < l by omega]
  · simp [hl, show j < l by omega]

/-- A field got from a field put is the value cut to the field's width. -/
theorem fieldGet_fieldPut (x v : Word) (l w : Nat) (h : l + w ≤ 32) : fieldGet (fieldPut x l w v) l w = v &&& ones w := by
  apply BitVec.eq_of_getLsbD_eq
  intro j hj
  rw [getLsbD_fieldGet, BitVec.getLsbD_and, getLsbD_ones]
  by_cases hw : j < w
  · rw [getLsbD_fieldPut _ _ _ _ _ (by omega), if_pos (by omega)]
    simp [hw, hj]
  · simp [hw]

/-- A disjoint field is not changed by a field put. -/
theorem fieldGet_fieldPut_disjoint (x v : Word) (l w l' w' : Nat) (h : l' + w' ≤ 32)
    (hd : l + w ≤ l' ∨ l' + w' ≤ l) : fieldGet (fieldPut x l w v) l' w' = fieldGet x l' w' := by
  apply BitVec.eq_of_getLsbD_eq
  intro j hj
  rw [getLsbD_fieldGet, getLsbD_fieldGet]
  by_cases hw : j < w'
  · rw [getLsbD_fieldPut _ _ _ _ _ (by omega), if_neg (by omega)]
  · simp [hw]

/-- `ones w` as a number. -/
theorem toNat_ones (w : Nat) (h : w ≤ 32) : (ones w).toNat = 2 ^ w - 1 := by
  simp only [ones, BitVec.toNat_ofNat]
  exact Nat.mod_eq_of_lt (by have := Nat.pow_le_pow_right (n := 2) (by omega) h; have := Nat.two_pow_pos w; omega)

/-- A field's value is below 2^w (41_bitfield R151 (e)). -/
theorem toNat_fieldGet_lt (x : Word) (l w : Nat) (h : w ≤ 32) : (fieldGet x l w).toNat < 2 ^ w := by
  have h1 : (fieldGet x l w).toNat ≤ (ones w).toNat := by
    simp only [fieldGet, BitVec.toNat_and]; exact Nat.and_le_right
  have h2 := toNat_ones w h
  have h3 : 0 < 2 ^ w := Nat.two_pow_pos w
  omega

theorem getLsbD_lane (v : Word) (j : Nat) : (lane v).getLsbD j = (decide (j < 8) && v.getLsbD j) := by
  have h : (0xFF : Word) = ones 8 := by decide
  simp only [lane, h, BitVec.getLsbD_and, getLsbD_ones]
  by_cases h8 : j < 8
  · simp [h8, show j < 32 by omega]
  · simp [h8]

/-! ## The records and lanes as bits put side by side (41_bitfield R156, R158; 42_id_codec R184 to R187) -/

theorem fieldGet_eq (x : Word) (l w : Nat) : fieldGet x l w = (x.extractLsb' l w).setWidth 32 := by
  apply BitVec.eq_of_getLsbD_eq
  intro i hi
  rw [getLsbD_fieldGet, BitVec.getLsbD_setWidth, BitVec.getLsbD_extractLsb']
  simp [hi]

theorem firPack_eq (dlc unk rtr ff : Word) : firPack dlc unk rtr ff =
    (ff.extractLsb' 0 1 ++ rtr.extractLsb' 0 1 ++ unk.extractLsb' 0 2 ++ dlc.extractLsb' 0 4).setWidth 32 := by
  apply BitVec.eq_of_getLsbD_eq
  intro i hi
  rw [BitVec.getLsbD_setWidth]
  simp only [BitVec.getLsbD_append, BitVec.getLsbD_extractLsb']
  interval_cases i <;> simp [firPack]

theorem firUnpack_eq (x : Word) : firUnpack x =
    [(x.extractLsb' 0 4).setWidth 32, (x.extractLsb' 4 2).setWidth 32, (x.extractLsb' 6 1).setWidth 32,
      (x.extractLsb' 7 1).setWidth 32] := by
  simp only [firUnpack, fieldGet_eq]

theorem encStd_eq (id : Word) : encStd id =
    [(id.extractLsb' 3 8).setWidth 32, (id.extractLsb' 0 3 ++ 0#5).setWidth 32] := by
  simp only [encStd, List.cons.injEq, and_true]
  refine ⟨?_, ?_⟩ <;>
    (apply BitVec.eq_of_getLsbD_eq
     intro i hi
     rw [BitVec.getLsbD_setWidth]
     simp only [BitVec.getLsbD_append, BitVec.getLsbD_extractLsb']
     interval_cases i <;> simp [lane])

theorem decStd_eq (l0 l1 : Word) : decStd l0 l1 = (l0.extractLsb' 0 8 ++ l1.extractLsb' 5 3).setWidth 32 := by
  apply BitVec.eq_of_getLsbD_eq
  intro i hi
  rw [BitVec.getLsbD_setWidth]
  simp only [BitVec.getLsbD_append, BitVec.getLsbD_extractLsb']
  interval_cases i <;> simp [decStd, lane]

theorem encExt_eq (id : Word) : encExt id =
    [(id.extractLsb' 21 8).setWidth 32, (id.extractLsb' 13 8).setWidth 32, (id.extractLsb' 5 8).setWidth 32,
      (id.extractLsb' 0 5 ++ 0#3).setWidth 32] := by
  simp only [encExt, List.cons.injEq, and_true]
  refine ⟨?_, ?_, ?_, ?_⟩ <;>
    (apply BitVec.eq_of_getLsbD_eq
     intro i hi
     rw [BitVec.getLsbD_setWidth]
     simp only [BitVec.getLsbD_append, BitVec.getLsbD_extractLsb']
     interval_cases i <;> simp [lane])

theorem decExt_eq (l0 l1 l2 l3 : Word) : decExt l0 l1 l2 l3 =
    (l0.extractLsb' 0 8 ++ l1.extractLsb' 0 8 ++ l2.extractLsb' 0 8 ++ l3.extractLsb' 3 5).setWidth 32 := by
  apply BitVec.eq_of_getLsbD_eq
  intro i hi
  rw [BitVec.getLsbD_setWidth]
  simp only [BitVec.getLsbD_append, BitVec.getLsbD_extractLsb']
  interval_cases i <;> simp [decExt, lane]

end Sys2Proof.Machine
end

