-- ==== Sys2Proof/Laws/Decode.lean ====
section
/-! SUPPORT. The operation word as its seven fields (30_encoding.md R101): packing and unpacking, and what each row of the
opcode map asks of the fields (R102, R103). -/

namespace Sys2Proof

/-! ## Fields of a packed word -/

section
variable (op : BitVec 6) (td ts : BitVec 4) (reg : BitVec 8) (lsb wm1 : BitVec 5) (imm : BitVec 32)

/-- Part of an append that lies in its low half. -/
theorem extract_append_low {n m : Nat} (x : BitVec n) (y : BitVec m) (a w : Nat) (h : a + w ≤ m) :
    (x ++ y).extractLsb' a w = y.extractLsb' a w := by
  apply BitVec.eq_of_getLsbD_eq
  intro i hi
  simp only [BitVec.getLsbD_extractLsb', BitVec.getLsbD_append, hi, decide_true, Bool.true_and]
  rw [if_pos (by omega)]

/-- Part of an append that lies in its high half. -/
theorem extract_append_high {n m : Nat} (x : BitVec n) (y : BitVec m) (a w : Nat) (h : m ≤ a) :
    (x ++ y).extractLsb' a w = x.extractLsb' (a - m) w := by
  apply BitVec.eq_of_getLsbD_eq
  intro i hi
  simp only [BitVec.getLsbD_extractLsb', BitVec.getLsbD_append, hi, decide_true, Bool.true_and]
  rw [if_neg (by omega), show a + i - m = a - m + i by omega]

theorem immField_packWord : immField (packWord op td ts reg lsb wm1 imm) = imm := by
  simp only [immField, packWord]
  rw [extract_append_low _ _ _ _ (by omega), BitVec.extractLsb'_eq_self]

theorem wm1Field_packWord : wm1Field (packWord op td ts reg lsb wm1 imm) = wm1 := by
  simp only [wm1Field, packWord]
  rw [extract_append_high _ _ _ _ (by omega), extract_append_low _ _ _ _ (by omega), BitVec.extractLsb'_eq_self]

theorem lsbField_packWord : lsbField (packWord op td ts reg lsb wm1 imm) = lsb := by
  simp only [lsbField, packWord]
  rw [extract_append_high _ _ _ _ (by omega), extract_append_high _ _ _ _ (by omega),
    extract_append_low _ _ _ _ (by omega), BitVec.extractLsb'_eq_self]

theorem regField_packWord : regField (packWord op td ts reg lsb wm1 imm) = reg := by
  simp only [regField, packWord]
  rw [extract_append_high _ _ _ _ (by omega), extract_append_high _ _ _ _ (by omega),
    extract_append_high _ _ _ _ (by omega), extract_append_low _ _ _ _ (by omega), BitVec.extractLsb'_eq_self]

theorem tsField_packWord : tsField (packWord op td ts reg lsb wm1 imm) = ts := by
  simp only [tsField, packWord]
  rw [extract_append_high _ _ _ _ (by omega), extract_append_high _ _ _ _ (by omega),
    extract_append_high _ _ _ _ (by omega), extract_append_high _ _ _ _ (by omega),
    extract_append_low _ _ _ _ (by omega), BitVec.extractLsb'_eq_self]

theorem tdField_packWord : tdField (packWord op td ts reg lsb wm1 imm) = td := by
  simp only [tdField, packWord]
  rw [extract_append_high _ _ _ _ (by omega), extract_append_high _ _ _ _ (by omega),
    extract_append_high _ _ _ _ (by omega), extract_append_high _ _ _ _ (by omega),
    extract_append_high _ _ _ _ (by omega), extract_append_low _ _ _ _ (by omega), BitVec.extractLsb'_eq_self]

theorem opField_packWord : opField (packWord op td ts reg lsb wm1 imm) = op := by
  simp only [opField, packWord]
  rw [extract_append_high _ _ _ _ (by omega), extract_append_high _ _ _ _ (by omega),
    extract_append_high _ _ _ _ (by omega), extract_append_high _ _ _ _ (by omega),
    extract_append_high _ _ _ _ (by omega), extract_append_high _ _ _ _ (by omega), BitVec.extractLsb'_eq_self]

/-- A mask over a packed word is a mask over each field. -/
theorem packWord_and (op' : BitVec 6) (td' ts' : BitVec 4) (reg' : BitVec 8) (lsb' wm1' : BitVec 5) (imm' : BitVec 32) :
    packWord op td ts reg lsb wm1 imm &&& packWord op' td' ts' reg' lsb' wm1' imm' =
      packWord (op &&& op') (td &&& td') (ts &&& ts') (reg &&& reg') (lsb &&& lsb') (wm1 &&& wm1') (imm &&& imm') := by
  apply BitVec.eq_of_getLsbD_eq
  intro i hi
  simp only [packWord, BitVec.getLsbD_and, BitVec.getLsbD_append]
  split_ifs <;> rfl

/-- Packed words are equal when their fields are. -/
theorem packWord_inj {op' : BitVec 6} {td' ts' : BitVec 4} {reg' : BitVec 8} {lsb' wm1' : BitVec 5} {imm' : BitVec 32} :
    packWord op td ts reg lsb wm1 imm = packWord op' td' ts' reg' lsb' wm1' imm' ↔
      op = op' ∧ td = td' ∧ ts = ts' ∧ reg = reg' ∧ lsb = lsb' ∧ wm1 = wm1' ∧ imm = imm' := by
  constructor
  · intro h
    refine ⟨?_, ?_, ?_, ?_, ?_, ?_, ?_⟩
    · simpa only [opField_packWord] using congrArg opField h
    · simpa only [tdField_packWord] using congrArg tdField h
    · simpa only [tsField_packWord] using congrArg tsField h
    · simpa only [regField_packWord] using congrArg regField h
    · simpa only [lsbField_packWord] using congrArg lsbField h
    · simpa only [wm1Field_packWord] using congrArg wm1Field h
    · simpa only [immField_packWord] using congrArg immField h
  · rintro ⟨rfl, rfl, rfl, rfl, rfl, rfl, rfl⟩; rfl

end

/-- Every word is its fields packed. -/
theorem packWord_fields (x : OpWord) :
    packWord (opField x) (tdField x) (tsField x) (regField x) (lsbField x) (wm1Field x) (immField x) = x := by
  apply BitVec.eq_of_getLsbD_eq
  intro i hi
  simp only [packWord, opField, tdField, tsField, regField, lsbField, wm1Field, immField, BitVec.getLsbD_append,
    BitVec.getLsbD_extractLsb']
  by_cases h0 : i < 32
  · simp [h0]
  by_cases h1 : i < 37
  · simp [h0, show i - 32 < 5 by omega, show 32 + (i - 32) = i by omega]
  by_cases h2 : i < 42
  · simp [h0, show ¬ i - 32 < 5 by omega, show i - 32 - 5 < 5 by omega, show 37 + (i - 32 - 5) = i by omega]
  by_cases h3 : i < 50
  · simp [h0, show ¬ i - 32 < 5 by omega, show ¬ i - 32 - 5 < 5 by omega, show i - 32 - 5 - 5 < 8 by omega,
      show 42 + (i - 32 - 5 - 5) = i by omega]
  by_cases h4 : i < 54
  · simp [h0, show ¬ i - 32 < 5 by omega, show ¬ i - 32 - 5 < 5 by omega, show ¬ i - 32 - 5 - 5 < 8 by omega,
      show i - 32 - 5 - 5 - 8 < 4 by omega, show 50 + (i - 32 - 5 - 5 - 8) = i by omega]
  by_cases h5 : i < 58
  · simp [h0, show ¬ i - 32 < 5 by omega, show ¬ i - 32 - 5 < 5 by omega, show ¬ i - 32 - 5 - 5 < 8 by omega,
      show ¬ i - 32 - 5 - 5 - 8 < 4 by omega, show i - 32 - 5 - 5 - 8 - 4 < 4 by omega,
      show 54 + (i - 32 - 5 - 5 - 8 - 4) = i by omega]
  · simp [h0, show ¬ i - 32 < 5 by omega, show ¬ i - 32 - 5 < 5 by omega, show ¬ i - 32 - 5 - 5 < 8 by omega,
      show ¬ i - 32 - 5 - 5 - 8 < 4 by omega, show ¬ i - 32 - 5 - 5 - 8 - 4 < 4 by omega,
      show i - 32 - 5 - 5 - 8 - 4 - 4 < 6 by omega, show 58 + (i - 32 - 5 - 5 - 8 - 4 - 4) = i by omega]

/-! ## What a row asks of the fields -/

/-- A mask and pattern given field by field, met by the fields of the word. -/
theorem and_packWord_iff (x : OpWord) (o o' : BitVec 6) (a a' b b' : BitVec 4) (c c' : BitVec 8) (d d' e e' : BitVec 5)
    (f f' : BitVec 32) : x &&& packWord o a b c d e f = packWord o' a' b' c' d' e' f' ↔
      opField x &&& o = o' ∧ tdField x &&& a = a' ∧ tsField x &&& b = b' ∧ regField x &&& c = c' ∧ lsbField x &&& d = d'
        ∧ wm1Field x &&& e = e' ∧ immField x &&& f = f' := by
  conv => lhs; rw [← packWord_fields x]
  rw [packWord_and, packWord_inj]

/-- The mask of a format: ones in `op` and in every must-be-zero field (R102, R103). -/
def Format.mask : Format → OpWord
  | .br => packWord (-1) 0 (-1) 0 (-1) (-1) (-1)
  | .bw => packWord (-1) (-1) 0 0 (-1) (-1) (-1)
  | .f => packWord (-1) 0 0 (-1) 0 0 (-1)
  | .p => packWord (-1) 0 0 (-1) (-1) (-1) (-1)
  | .i => packWord (-1) 0 (-1) (-1) (-1) (-1) 0

/-- Each row's mask is its format's, and its pattern is its number with zeros below (checked on the table's literals). -/
theorem opTable_forms : ∀ r ∈ opTable, r.mask = r.op.format.mask ∧ r.pattern = packWord r.number 0 0 0 0 0 0 := by decide

/-- The masked word is the bare operation number: the number and every must-be-zero field agree. -/
theorem Format.mask_iff (x : OpWord) (n : BitVec 6) (k : Format) :
    x &&& k.mask = packWord n 0 0 0 0 0 0 ↔ opField x = n ∧ k.zeroFieldsClear x = true := by
  have one : ∀ {w : Nat} (y : BitVec w), y &&& (-1) = y := fun y => by
    rw [show (-1 : BitVec _) = BitVec.allOnes _ from BitVec.neg_one_eq_allOnes]; simp
  have zero : ∀ {w : Nat} (y : BitVec w), y &&& 0 = 0 := fun y => BitVec.and_zero
  cases k <;> simp only [Format.mask, and_packWord_iff, one, zero, Format.zeroFieldsClear, decide_eq_true_eq, true_and, and_true]

end Sys2Proof
end

