-- ==== Sys2Proof/Laws/Memory.lean ====
section
/-! SUPPORT. The register window: its canonical form is kept, and a read gives what was last written (20_memory.md R73, R83). -/

namespace Sys2Proof.Machine

/-! ## Bytes -/

theorem Memory.readByte_cons (k : Nat) (b : Byte) (m : Memory) (j : Nat)
    (h : k = j → m.readByte j = Memory.unlisted) :
    (Memory.cons k b m).readByte j = if k = j then b else m.readByte j := by
  unfold Memory.cons
  split
  · split
    · rename_i hb hj; rw [h hj, hb]
    · rfl
  · rfl

/-- Below every listed offset a byte reads as unlisted. -/
theorem Memory.readByte_below (m : Memory) (k : Nat) (h : ∀ c ∈ m, k < c.1) : m.readByte k = Memory.unlisted := by
  induction m with
  | nil => rfl
  | cons c m ih =>
    have hc := h c (by simp)
    simp only [Memory.readByte]
    rw [if_neg (by omega)]
    exact ih fun d hd => h d (by simp [hd])

theorem Memory.mem_cons {k : Nat} {b : Byte} {m : Memory} {c : Host.Cell} (h : c ∈ Memory.cons k b m) :
    (c = (k, b) ∧ b ≠ Memory.unlisted) ∨ c ∈ m := by
  unfold Memory.cons at h
  split at h
  · exact .inr h
  · rename_i hb
    rcases List.mem_cons.mp h with h | h
    · exact .inl ⟨h, hb⟩
    · exact .inr h

theorem Memory.mem_writeByte {k : Nat} {b : Byte} {c : Host.Cell} (m : Memory) :
    c ∈ m.writeByte k b → (c = (k, b) ∧ b ≠ Memory.unlisted) ∨ c ∈ m := by
  induction m with
  | nil => intro h; exact Memory.mem_cons h
  | cons d m ih =>
    intro h
    unfold Memory.writeByte at h
    split at h
    · exact Memory.mem_cons h
    · split at h
      · rcases Memory.mem_cons h with h | h
        · exact .inl h
        · exact .inr (by simp [h])
      · rcases List.mem_cons.mp h with h | h
        · exact .inr (by simp [h])
        · rcases ih h with h | h
          · exact .inl h
          · exact .inr (by simp [h])

theorem Memory.wf_cons {k : Nat} {b : Byte} {m : Memory} (hm : m.wf) (hk : ∀ c ∈ m, k < c.1) : (Memory.cons k b m).wf := by
  unfold Memory.cons
  split
  · exact hm
  · rename_i hb
    refine ⟨List.pairwise_cons.mpr ⟨hk, hm.1⟩, ?_⟩
    intro c hc
    rcases List.mem_cons.mp hc with rfl | hc
    · exact hb
    · exact hm.2 c hc

theorem Memory.wf_tail {c : Host.Cell} {m : Memory} (h : Memory.wf (c :: m)) : m.wf :=
  ⟨(List.pairwise_cons.mp h.1).2, fun d hd => h.2 d (by simp [hd])⟩

/-- Writing a byte keeps the canonical form. -/
theorem Memory.wf_writeByte {m : Memory} (h : m.wf) (k : Nat) (b : Byte) : (m.writeByte k b).wf := by
  induction m with
  | nil => exact Memory.wf_cons h (by simp)
  | cons c m ih =>
    have hlt := (List.pairwise_cons.mp h.1).1
    unfold Memory.writeByte
    split
    · rename_i hk
      exact Memory.wf_cons h fun d hd => by
        rcases List.mem_cons.mp hd with rfl | hd
        · exact hk
        · exact Nat.lt_trans hk (hlt d hd)
    · split
      · rename_i hk; subst hk; exact Memory.wf_cons (Memory.wf_tail h) hlt
      · have ht := ih (Memory.wf_tail h)
        refine ⟨List.pairwise_cons.mpr ⟨?_, ht.1⟩, ?_⟩
        · intro d hd
          rcases Memory.mem_writeByte m hd with ⟨rfl, _⟩ | hd
          · simp only; omega
          · exact hlt d hd
        · intro d hd
          rcases List.mem_cons.mp hd with rfl | hd
          · exact h.2 d (by simp)
          · exact ht.2 d hd

/-- A byte read after a write: the byte written at its own offset, what was there elsewhere. -/
theorem Memory.readByte_writeByte {m : Memory} (h : m.wf) (k : Nat) (b : Byte) (j : Nat) :
    (m.writeByte k b).readByte j = if k = j then b else m.readByte j := by
  induction m with
  | nil =>
    unfold Memory.writeByte
    rw [Memory.readByte_cons _ _ _ _ fun _ => rfl]
  | cons c m ih =>
    have hlt := (List.pairwise_cons.mp h.1).1
    unfold Memory.writeByte
    split
    · rename_i hk
      rw [Memory.readByte_cons]
      intro hj
      refine Memory.readByte_below _ _ fun d hd => ?_
      rcases List.mem_cons.mp hd with rfl | hd
      · omega
      · exact hj ▸ Nat.lt_trans hk (hlt d hd)
    · split
      · rename_i hk
        rw [Memory.readByte_cons]
        · by_cases hj : k = j
          · simp [hj]
          · rw [if_neg hj, if_neg hj]; simp only [Memory.readByte]; rw [if_neg (by omega)]
        · intro hj; exact Memory.readByte_below _ _ fun d hd => by have := hlt d hd; omega
      · simp only [Memory.readByte, ih (Memory.wf_tail h)]
        by_cases hc : c.1 = j
        · simp only [if_pos hc]; rw [if_neg (by omega)]
        · simp only [if_neg hc]

/-! ## Words -/

/-- Writing a word keeps the canonical form. -/
theorem Memory.wf_writeWord {m : Memory} (h : m.wf) (a : Nat) (v : Word) : (m.writeWord a v).wf :=
  Memory.wf_writeByte (Memory.wf_writeByte (Memory.wf_writeByte (Memory.wf_writeByte h _ _) _ _) _ _) _ _

/-- A byte after a word was written: byte `j - 4a` of the word inside it, what was there outside it. -/
theorem Memory.readByte_writeWord {m : Memory} (h : m.wf) (a : Nat) (v : Word) (j : Nat) :
    (m.writeWord a v).readByte j = if 4 * a ≤ j ∧ j < 4 * a + 4 then byteOf v (j - 4 * a) else m.readByte j := by
  have h1 := Memory.wf_writeByte h (4 * a) (byteOf v 0)
  have h2 := Memory.wf_writeByte h1 (4 * a + 1) (byteOf v 1)
  have h3 := Memory.wf_writeByte h2 (4 * a + 2) (byteOf v 2)
  unfold Memory.writeWord
  rw [Memory.readByte_writeByte h3, Memory.readByte_writeByte h2, Memory.readByte_writeByte h1, Memory.readByte_writeByte h]
  by_cases hr : 4 * a ≤ j ∧ j < 4 * a + 4
  · rw [if_pos hr]
    obtain ⟨k, hk, rfl⟩ : ∃ k, k < 4 ∧ j = 4 * a + k := ⟨j - 4 * a, by omega, by omega⟩
    have : k = 0 ∨ k = 1 ∨ k = 2 ∨ k = 3 := by omega
    rcases this with rfl | rfl | rfl | rfl <;> simp
  · rw [if_neg hr]
    rw [if_neg (by omega), if_neg (by omega), if_neg (by omega), if_neg (by omega)]

/-- A word is its four bytes, least significant first. -/
theorem byteOf_append (v : Word) : byteOf v 3 ++ byteOf v 2 ++ byteOf v 1 ++ byteOf v 0 = v := by
  apply BitVec.eq_of_getLsbD_eq
  intro i hi
  simp only [byteOf, BitVec.getLsbD_append, BitVec.getLsbD_extractLsb']
  have e0 : 8 * 0 + i = i := by omega
  by_cases h0 : i < 8
  · simp [h0]
  · by_cases h1 : i < 16
    · simp [h0, show i - 8 < 8 by omega, show 8 + (i - 8) = i by omega]
    · by_cases h2 : i < 24
      · simp [h0, show ¬ i - 8 < 8 by omega, show i - 8 - 8 < 8 by omega, show 16 + (i - 8 - 8) = i by omega]
      · simp [h0, show ¬ i - 8 < 8 by omega, show ¬ i - 8 - 8 < 8 by omega, show i - 8 - 8 - 8 < 8 by omega,
          show 24 + (i - 8 - 8 - 8) = i by omega]

/-- A word read after a write: the word written at its own index, what was there elsewhere. -/
theorem Memory.readWord_writeWord {m : Memory} (h : m.wf) (a : Nat) (v : Word) (b : Nat) :
    (m.writeWord a v).readWord b = if a = b then v else m.readWord b := by
  unfold Memory.readWord
  simp only [Memory.readByte_writeWord h]
  by_cases hab : a = b
  · subst hab
    simp only [if_true]
    rw [if_pos (by omega), if_pos (by omega), if_pos (by omega), if_pos (by omega)]
    have e : 4 * a + 3 - 4 * a = 3 ∧ 4 * a + 2 - 4 * a = 2 ∧ 4 * a + 1 - 4 * a = 1 ∧ 4 * a - 4 * a = 0 := by omega
    rw [e.1, e.2.1, e.2.2.1, e.2.2.2, byteOf_append]
  · rw [if_neg (by omega), if_neg (by omega), if_neg (by omega), if_neg (by omega), if_neg hab]

/-- A byte of the window is the byte of its word (20_memory R73). -/
theorem byteOf_readWord (m : Memory) (a k : Nat) (hk : k < 4) : byteOf (m.readWord a) k = m.readByte (4 * a + k) := by
  apply BitVec.eq_of_getLsbD_eq
  intro i hi
  simp only [byteOf, Memory.readWord, BitVec.getLsbD_append, BitVec.getLsbD_extractLsb', hi, decide_true, Bool.true_and]
  have : k = 0 ∨ k = 1 ∨ k = 2 ∨ k = 3 := by omega
  rcases this with rfl | rfl | rfl | rfl
  · simp only [show 8 * 0 + i = i by omega, hi, if_true, Nat.add_zero]
  · simp only [show 8 * 1 + i - 8 = i by omega, show ¬ 8 * 1 + i < 8 by omega, hi, if_true, if_false]
  · simp only [show 8 * 2 + i - 8 - 8 = i by omega, show ¬ 8 * 2 + i < 8 by omega, show ¬ 8 * 2 + i - 8 < 8 by omega, hi,
      if_true, if_false]
  · simp only [show 8 * 3 + i - 8 - 8 - 8 = i by omega, show ¬ 8 * 3 + i < 8 by omega, show ¬ 8 * 3 + i - 8 < 8 by omega,
      show ¬ 8 * 3 + i - 8 - 8 < 8 by omega, if_false]

/-! ## Registers -/

theorem State.reg_setReg {s : State} (h : s.regs.wf) (a : Nat) (v : Word) (b : Nat) :
    (s.setReg a v).reg b = if a = b then v else s.reg b := Memory.readWord_writeWord h a v b

theorem State.wf_setReg {s : State} (h : s.regs.wf) (a : Nat) (v : Word) : (s.setReg a v).regs.wf :=
  Memory.wf_writeWord h a v

end Sys2Proof.Machine
end

