-- ==== Sys2Proof/Laws/State.lean ====
section
/-! SUPPORT. What each named update of the state leaves and sets, field by field. -/

namespace Sys2Proof.Machine

/-! ## setReg -/
@[simp] theorem State.setReg_cfg (s : State) (a : Nat) (v : Word) : (s.setReg a v).cfg = s.cfg := rfl
@[simp] theorem State.setReg_script (s : State) (a : Nat) (v : Word) : (s.setReg a v).script = s.script := rfl
@[simp] theorem State.setReg_schedule (s : State) (a : Nat) (v : Word) : (s.setReg a v).schedule = s.schedule := rfl
@[simp] theorem State.setReg_regs (s : State) (a : Nat) (v : Word) : (s.setReg a v).regs = s.regs.writeWord a v := rfl
@[simp] theorem State.setReg_cmodeIn (s : State) (a : Nat) (v : Word) : (s.setReg a v).cmodeIn = s.cmodeIn := rfl
@[simp] theorem State.setReg_temps (s : State) (a : Nat) (v : Word) : (s.setReg a v).temps = s.temps := rfl
@[simp] theorem State.setReg_pc (s : State) (a : Nat) (v : Word) : (s.setReg a v).pc = s.pc := rfl
@[simp] theorem State.setReg_hist (s : State) (a : Nat) (v : Word) : (s.setReg a v).hist = s.hist := rfl
@[simp] theorem State.setReg_refused (s : State) (a : Nat) (v : Word) : (s.setReg a v).refused = s.refused := rfl
@[simp] theorem State.setReg_faulted (s : State) (a : Nat) (v : Word) : (s.setReg a v).faulted = s.faulted := rfl
@[simp] theorem State.setReg_draws (s : State) (a : Nat) (v : Word) : (s.setReg a v).draws = s.draws := rfl

/-! ## setTemp -/
@[simp] theorem State.setTemp_cfg (s : State) (i : Nat) (v : Word) : (s.setTemp i v).cfg = s.cfg := rfl
@[simp] theorem State.setTemp_script (s : State) (i : Nat) (v : Word) : (s.setTemp i v).script = s.script := rfl
@[simp] theorem State.setTemp_schedule (s : State) (i : Nat) (v : Word) : (s.setTemp i v).schedule = s.schedule := rfl
@[simp] theorem State.setTemp_regs (s : State) (i : Nat) (v : Word) : (s.setTemp i v).regs = s.regs := rfl
@[simp] theorem State.setTemp_cmodeIn (s : State) (i : Nat) (v : Word) : (s.setTemp i v).cmodeIn = s.cmodeIn := rfl
@[simp] theorem State.setTemp_pc (s : State) (i : Nat) (v : Word) : (s.setTemp i v).pc = s.pc := rfl
@[simp] theorem State.setTemp_hist (s : State) (i : Nat) (v : Word) : (s.setTemp i v).hist = s.hist := rfl
@[simp] theorem State.setTemp_refused (s : State) (i : Nat) (v : Word) : (s.setTemp i v).refused = s.refused := rfl
@[simp] theorem State.setTemp_faulted (s : State) (i : Nat) (v : Word) : (s.setTemp i v).faulted = s.faulted := rfl
@[simp] theorem State.setTemp_draws (s : State) (i : Nat) (v : Word) : (s.setTemp i v).draws = s.draws := rfl
@[simp] theorem State.setTemp_reg (s : State) (i : Nat) (v : Word) (a : Nat) : (s.setTemp i v).reg a = s.reg a := rfl

/-! ## emit -/
@[simp] theorem State.emit_cfg (s : State) (e : Event) : (s.emit e).cfg = s.cfg := rfl
@[simp] theorem State.emit_script (s : State) (e : Event) : (s.emit e).script = s.script := rfl
@[simp] theorem State.emit_schedule (s : State) (e : Event) : (s.emit e).schedule = s.schedule := rfl
@[simp] theorem State.emit_regs (s : State) (e : Event) : (s.emit e).regs = s.regs := rfl
@[simp] theorem State.emit_cmodeIn (s : State) (e : Event) : (s.emit e).cmodeIn = s.cmodeIn := rfl
@[simp] theorem State.emit_temps (s : State) (e : Event) : (s.emit e).temps = s.temps := rfl
@[simp] theorem State.emit_pc (s : State) (e : Event) : (s.emit e).pc = s.pc := rfl
@[simp] theorem State.emit_hist (s : State) (e : Event) : (s.emit e).hist = s.hist ++ [e] := rfl
@[simp] theorem State.emit_refused (s : State) (e : Event) : (s.emit e).refused = s.refused := rfl
@[simp] theorem State.emit_faulted (s : State) (e : Event) : (s.emit e).faulted = s.faulted := rfl
@[simp] theorem State.emit_draws (s : State) (e : Event) : (s.emit e).draws = s.draws := rfl
@[simp] theorem State.emit_reg (s : State) (e : Event) (a : Nat) : (s.emit e).reg a = s.reg a := rfl
@[simp] theorem State.emit_temp (s : State) (e : Event) (i : Nat) : (s.emit e).temp i = s.temp i := rfl

/-! ## drawn -/
@[simp] theorem State.drawn_cfg (s : State) : s.drawn.cfg = s.cfg := rfl
@[simp] theorem State.drawn_script (s : State) : s.drawn.script = s.script := rfl
@[simp] theorem State.drawn_schedule (s : State) : s.drawn.schedule = s.schedule := rfl
@[simp] theorem State.drawn_regs (s : State) : s.drawn.regs = s.regs := rfl
@[simp] theorem State.drawn_cmodeIn (s : State) : s.drawn.cmodeIn = s.cmodeIn := rfl
@[simp] theorem State.drawn_temps (s : State) : s.drawn.temps = s.temps := rfl
@[simp] theorem State.drawn_pc (s : State) : s.drawn.pc = s.pc := rfl
@[simp] theorem State.drawn_hist (s : State) : s.drawn.hist = s.hist := rfl
@[simp] theorem State.drawn_refused (s : State) : s.drawn.refused = s.refused := rfl
@[simp] theorem State.drawn_faulted (s : State) : s.drawn.faulted = s.faulted := rfl
@[simp] theorem State.drawn_draws (s : State) : s.drawn.draws = s.draws + 1 := rfl
@[simp] theorem State.drawn_reg (s : State) (a : Nat) : s.drawn.reg a = s.reg a := rfl
@[simp] theorem State.drawn_temp (s : State) (i : Nat) : s.drawn.temp i = s.temp i := rfl

/-! ## popTurn -/
@[simp] theorem State.popTurn_cfg (s : State) : s.popTurn.cfg = s.cfg := rfl
@[simp] theorem State.popTurn_script (s : State) : s.popTurn.script = s.script := rfl
@[simp] theorem State.popTurn_schedule (s : State) : s.popTurn.schedule = s.schedule.tail := rfl
@[simp] theorem State.popTurn_regs (s : State) : s.popTurn.regs = s.regs := rfl
@[simp] theorem State.popTurn_cmodeIn (s : State) : s.popTurn.cmodeIn = s.cmodeIn := rfl
@[simp] theorem State.popTurn_temps (s : State) : s.popTurn.temps = s.temps := rfl
@[simp] theorem State.popTurn_pc (s : State) : s.popTurn.pc = s.pc := rfl
@[simp] theorem State.popTurn_hist (s : State) : s.popTurn.hist = s.hist := rfl
@[simp] theorem State.popTurn_refused (s : State) : s.popTurn.refused = s.refused := rfl
@[simp] theorem State.popTurn_faulted (s : State) : s.popTurn.faulted = s.faulted := rfl
@[simp] theorem State.popTurn_draws (s : State) : s.popTurn.draws = s.draws := rfl
@[simp] theorem State.popTurn_reg (s : State) (a : Nat) : s.popTurn.reg a = s.reg a := rfl
@[simp] theorem State.popTurn_temp (s : State) (i : Nat) : s.popTurn.temp i = s.temp i := rfl
@[simp] theorem State.popTurn_cmode (s : State) : s.popTurn.cmode = s.cmode := rfl
@[simp] theorem State.popTurn_fetch (s : State) : s.popTurn.fetch = s.fetch := rfl

/-! ## stop -/
@[simp] theorem State.stop_refuse (s : State) (r : RefuseReason) : s.stop (.refuse r) = { s with refused := some r } := rfl
@[simp] theorem State.stop_fault (s : State) (f : FaultReason) : s.stop (.fault f) = { s with faulted := some f } := rfl
@[simp] theorem State.stop_cfg (s : State) (e : Stop) : (s.stop e).cfg = s.cfg := by cases e <;> rfl
@[simp] theorem State.stop_script (s : State) (e : Stop) : (s.stop e).script = s.script := by cases e <;> rfl
@[simp] theorem State.stop_schedule (s : State) (e : Stop) : (s.stop e).schedule = s.schedule := by cases e <;> rfl
@[simp] theorem State.stop_regs (s : State) (e : Stop) : (s.stop e).regs = s.regs := by cases e <;> rfl
@[simp] theorem State.stop_cmodeIn (s : State) (e : Stop) : (s.stop e).cmodeIn = s.cmodeIn := by cases e <;> rfl
@[simp] theorem State.stop_temps (s : State) (e : Stop) : (s.stop e).temps = s.temps := by cases e <;> rfl
@[simp] theorem State.stop_pc (s : State) (e : Stop) : (s.stop e).pc = s.pc := by cases e <;> rfl
@[simp] theorem State.stop_hist (s : State) (e : Stop) : (s.stop e).hist = s.hist := by cases e <;> rfl
@[simp] theorem State.stop_draws (s : State) (e : Stop) : (s.stop e).draws = s.draws := by cases e <;> rfl
@[simp] theorem State.stop_reg (s : State) (e : Stop) (a : Nat) : (s.stop e).reg a = s.reg a := by cases e <;> rfl
@[simp] theorem State.stop_temp (s : State) (e : Stop) (i : Nat) : (s.stop e).temp i = s.temp i := by cases e <;> rfl

/-! ## setRun -/
@[simp] theorem State.setRun_nil (s : State) (i : Nat) : s.setRun i [] = s := rfl
@[simp] theorem State.setRun_cons (s : State) (i : Nat) (v : Word) (vs : List Word) :
    s.setRun i (v :: vs) = (s.setTemp i v).setRun (i + 1) vs := rfl

/-- A run of temporaries written changes nothing but the temporaries. -/
theorem State.setRun_eq (vs : List Word) : ∀ (s : State) (i : Nat), s.setRun i vs = { s with temps := (s.setRun i vs).temps } := by
  induction vs with
  | nil => intro s i; rfl
  | cons v vs ih => intro s i; rw [setRun_cons, ih]; rfl

@[simp] theorem State.setRun_cfg (s : State) (i : Nat) (vs : List Word) : (s.setRun i vs).cfg = s.cfg := by rw [setRun_eq]
@[simp] theorem State.setRun_script (s : State) (i : Nat) (vs : List Word) : (s.setRun i vs).script = s.script := by
  rw [setRun_eq]
@[simp] theorem State.setRun_schedule (s : State) (i : Nat) (vs : List Word) : (s.setRun i vs).schedule = s.schedule := by
  rw [setRun_eq]
@[simp] theorem State.setRun_regs (s : State) (i : Nat) (vs : List Word) : (s.setRun i vs).regs = s.regs := by rw [setRun_eq]
@[simp] theorem State.setRun_cmodeIn (s : State) (i : Nat) (vs : List Word) : (s.setRun i vs).cmodeIn = s.cmodeIn := by
  rw [setRun_eq]
@[simp] theorem State.setRun_pc (s : State) (i : Nat) (vs : List Word) : (s.setRun i vs).pc = s.pc := by rw [setRun_eq]
@[simp] theorem State.setRun_hist (s : State) (i : Nat) (vs : List Word) : (s.setRun i vs).hist = s.hist := by rw [setRun_eq]
@[simp] theorem State.setRun_refused (s : State) (i : Nat) (vs : List Word) : (s.setRun i vs).refused = s.refused := by
  rw [setRun_eq]
@[simp] theorem State.setRun_faulted (s : State) (i : Nat) (vs : List Word) : (s.setRun i vs).faulted = s.faulted := by
  rw [setRun_eq]
@[simp] theorem State.setRun_draws (s : State) (i : Nat) (vs : List Word) : (s.setRun i vs).draws = s.draws := by rw [setRun_eq]

/-! ## placeWord -/
@[simp] theorem State.placeWord_cfg (s : State) (x : OpWord) : (s.placeWord x).cfg = s.cfg := rfl
@[simp] theorem State.placeWord_schedule (s : State) (x : OpWord) : (s.placeWord x).schedule = [] := rfl
@[simp] theorem State.placeWord_regs (s : State) (x : OpWord) : (s.placeWord x).regs = s.regs := rfl
@[simp] theorem State.placeWord_temps (s : State) (x : OpWord) : (s.placeWord x).temps = s.temps := rfl
@[simp] theorem State.placeWord_pc (s : State) (x : OpWord) : (s.placeWord x).pc = s.pc := rfl
@[simp] theorem State.placeWord_hist (s : State) (x : OpWord) : (s.placeWord x).hist = s.hist := rfl
@[simp] theorem State.placeWord_refused (s : State) (x : OpWord) : (s.placeWord x).refused = none := rfl
@[simp] theorem State.placeWord_faulted (s : State) (x : OpWord) : (s.placeWord x).faulted = none := rfl

/-- The placed word is the one fetched next. -/
theorem State.placeWord_fetch (s : State) (x : OpWord) : (s.placeWord x).script[(s.placeWord x).pc]? = some x := by
  simp only [placeWord]
  have hlen : (s.script.take s.pc ++ List.replicate (s.pc - s.script.length) (0 : OpWord)).length = s.pc := by
    simp; omega
  rw [List.getElem?_append_right (by omega), hlen]; simp

/-! ## Temporaries -/

/-- A write of a temporary that exists is read back; the others keep what they held. -/
theorem State.temp_setTemp (s : State) (i j : Nat) (v : Word) :
    (s.setTemp i v).temp j = if i = j ∧ i < 16 then some v else s.temp j := by
  unfold temp setTemp
  by_cases h : i = j
  · subst h
    by_cases hi : i < 16
    · simp [hi]
    · simp [hi]
  · simp [h]

theorem State.temp_setTemp_self (s : State) (i : Nat) (v : Word) (h : i < 16) : (s.setTemp i v).temp i = some v := by
  simp [temp_setTemp, h]

theorem State.temp_setTemp_ne (s : State) (i j : Nat) (v : Word) (h : i ≠ j) : (s.setTemp i v).temp j = s.temp j := by
  simp [temp_setTemp, h]

/-- A run written from `i` on, within `t0 .. t15`: temporary `j` of the run holds its value, the others are unchanged. -/
theorem State.temp_setRun (vs : List Word) : ∀ (s : State) (i j : Nat), i + vs.length ≤ 16 →
    (s.setRun i vs).temp j = if i ≤ j ∧ j < i + vs.length then vs[j - i]? else s.temp j := by
  induction vs with
  | nil => intro s i j _; simp
  | cons v vs ih =>
    intro s i j h
    simp only [List.length_cons] at h
    rw [setRun_cons, ih _ _ _ (by omega), temp_setTemp]
    by_cases hj : i = j
    · subst hj; simp; intro; omega
    · by_cases hr : i ≤ j ∧ j < i + (vs.length + 1)
      · obtain ⟨k, rfl⟩ : ∃ k, j = i + 1 + k := ⟨j - (i + 1), by omega⟩
        have e1 : i + 1 + k - (i + 1) = k := by omega
        have e2 : i + 1 + k - i = k + 1 := by omega
        simp [e1, e2, show k < vs.length by omega, show i + 1 + k < i + (vs.length + 1) by omega,
          show i ≤ i + 1 + k by omega]
      · rw [if_neg (by omega), if_neg (by omega), if_neg (by simpa using hr)]

/-- An operand is its temporary's value, or the fault that names it. -/
theorem State.readTemp_some {s : State} {i : Nat} {v : Word} (h : s.temp i = some v) : s.readTemp i = .ok v := by
  simp [readTemp, h]

theorem State.readTemp_none {s : State} {i : Nat} (h : s.temp i = none) :
    s.readTemp i = .error (.fault (.unwrittenTemp i)) := by
  simp [readTemp, h]

end Sys2Proof.Machine
end

