-- ==== Sys2Proof/Laws/Window.lean ====
section
/-! SUPPORT. The register window of a configuration: the places that do not depend on the parameters, and the default masks
(95_test_vectors.md V9). -/

namespace Sys2Proof

@[simp] theorem Config.wordClass_zero (cfg : Config) : cfg.wordClass 0 = .storage := rfl
@[simp] theorem Config.wordClass_one (cfg : Config) : cfg.wordClass 1 = .strobe := rfl

@[simp] theorem rsvRun_length (k n : Nat) : (rsvRun k n).length = n := by simp [rsvRun]
@[simp] theorem mbxRun_length (n : Nat) : (mbxRun n).length = n := by simp [mbxRun]
@[simp] theorem iramRun_length (n : Nat) : (iramRun n).length = n := by simp [iramRun]

/-- `NWORDS` (00_scope R7): `16 + MBX_WORDS + 3 + IRAM_WORDS` where a reserved slot is one word. -/
theorem Config.nwords_eq (cfg : Config) : cfg.nwords = 13 + 3 * cfg.rsvWords + cfg.mbxWords + 3 + cfg.iramWords := by
  simp [nwords, layout, controlRegs, timingRegs, errorRegs, bufferRegs]; omega

/-- A word past the window is outside, and only such a word (20_memory R81). -/
theorem Config.wordClass_outside (cfg : Config) (a : Nat) : cfg.wordClass a = .outside ↔ cfg.nwords ≤ a := by
  unfold wordClass nwords
  cases h : cfg.layout[a]? with
  | none => simpa using List.getElem?_eq_none_iff.mp h
  | some r =>
    have := (List.getElem?_eq_some_iff.mp h).1
    have hr : r.wordClass ≠ .outside := by cases r <;> simp [Reg.wordClass]
    simp [hr]; omega

/-- The mailbox words stand from `mbxBase` on. -/
theorem Config.layout_mailbox (cfg : Config) (k : Nat) (h : k < cfg.mbxWords) : cfg.layout[cfg.mbxBase + k]? = some (.mbx k) := by
  unfold layout
  rw [List.append_assoc, List.append_assoc, List.getElem?_append_right]
  · have hl : (controlRegs ++ rsvRun 0 cfg.rsvWords ++ timingRegs ++ rsvRun cfg.rsvWords (2 * cfg.rsvWords) ++ errorRegs).length
        = cfg.mbxBase := by
      simp [mbxBase, controlRegs, timingRegs, errorRegs]; omega
    rw [hl, List.getElem?_append_left (by simp; omega)]
    simp [mbxRun, h]
  · simp [mbxBase, controlRegs, timingRegs, errorRegs]; omega

theorem Config.wordClass_mailbox (cfg : Config) (k : Nat) (h : k < cfg.mbxWords) : cfg.wordClass (cfg.mbxBase + k) = .storage := by
  unfold wordClass; rw [cfg.layout_mailbox k h]; rfl

/-- The command register stands in the register order once. -/
theorem Config.cmr_not_late (cfg : Config) : ∀ r ∈ cfg.layout.drop 2, r ≠ .cmr := by
  intro r hr
  have h : cfg.layout.drop 2 = [.sr, .ir, .ier] ++ (rsvRun 0 cfg.rsvWords ++ (timingRegs ++
      (rsvRun cfg.rsvWords (2 * cfg.rsvWords) ++ (errorRegs ++ (mbxRun cfg.mbxWords ++ (bufferRegs ++ iramRun cfg.iramWords)))))) := by
    simp [layout, controlRegs]
  rw [h] at hr
  simp only [List.mem_append, rsvRun, mbxRun, iramRun, List.mem_map] at hr
  rcases hr with h | ⟨_, _, rfl⟩ | h | ⟨_, _, rfl⟩ | h | ⟨_, _, rfl⟩ | h | ⟨_, _, rfl⟩
  · intro e; subst e; simp at h
  · simp
  · intro e; subst e; simp [timingRegs] at h
  · simp
  · intro e; subst e; simp [errorRegs] at h
  · simp
  · intro e; subst e; simp [bufferRegs] at h
  · simp

/-- The strobe word is word 1 (10_state R34). -/
theorem Config.wordClass_strobe {cfg : Config} {a : Nat} (h : cfg.wordClass a = .strobe) : a = 1 := by
  match a with
  | 0 => cases h
  | 1 => rfl
  | k + 2 =>
    exfalso
    unfold wordClass at h
    cases hr : cfg.layout[k + 2]? with
    | none => rw [hr] at h; cases h
    | some r =>
      rw [hr] at h
      have hm : r ∈ cfg.layout.drop 2 := by
        rw [List.mem_iff_getElem?]; exact ⟨k, by rw [List.getElem?_drop, Nat.add_comm]; exact hr⟩
      have hc := cfg.cmr_not_late r hm
      cases r <;> simp_all [Reg.wordClass]

theorem Config.storageMask_of_storage {cfg : Config} {a : Nat} (h : cfg.wordClass a = .storage) :
    cfg.storageMask a = cfg.implMask a := by simp [storageMask, h]

/-- CORE owns storage words only (10_state R47). -/
theorem Config.owns_storage {cfg : Config} {a : Nat} (h : cfg.owns a = true) : cfg.wordClass a = .storage := by
  unfold owns at h; split at h <;> simp at h
  · exact h
  · exact h.1
  · exact h.1

/-- The class of a word depends on the layout only. -/
theorem Config.wordClass_ext {c d : Config} (h : c.layout = d.layout) (a : Nat) : c.wordClass a = d.wordClass a := by
  simp [wordClass, h]

theorem Machine.checkReg_none {cfg : Config} {a : Nat} :
    Machine.checkReg cfg a = none ↔ cfg.wordClass a = .storage ∨ cfg.wordClass a = .strobe := by
  unfold Machine.checkReg; split <;> simp_all

end Sys2Proof
end

