-- ==== Sys2Proof/Laws/Ops.lean ====
section
/-! SUPPORT. What each shared operation can do, said once: the mailbox redraw, the bus primitives, CORE's turns. -/

namespace Sys2Proof.Machine

/-! ## The mailbox redraw (10_state R47, R48) -/

/-- A redraw changes the window and the number of draws, nothing else. -/
theorem State.redrawWords_eq (n : Nat) : ∀ (s : State) (b : Nat),
    s.redrawWords b n = { s with regs := (s.redrawWords b n).regs, draws := s.draws + n } := by
  induction n with
  | zero => intro s b; rfl
  | succ n ih =>
    intro s b
    simp only [redrawWords]
    rw [ih]
    simp [redrawWord, setReg, drawn, Nat.add_assoc, Nat.add_comm 1 n]

theorem State.wf_redrawWords (n : Nat) : ∀ (s : State) (b : Nat), s.regs.wf → (s.redrawWords b n).regs.wf := by
  induction n with
  | zero => intro s b h; exact h
  | succ n ih => intro s b h; exact ih _ _ (State.wf_setReg (s := s.drawn) h _ _)

/-- Word `a` after a redraw: its own draw in its implemented bits if it was redrawn, else what it held. -/
theorem State.reg_redrawWords (n : Nat) : ∀ (s : State) (b a : Nat), s.regs.wf →
    (s.redrawWords b n).reg a =
      if b ≤ a ∧ a < b + n then Config.draw (s.draws + (a - b)) &&& s.cfg.implMask a else s.reg a := by
  induction n with
  | zero => intro s b a _; rw [if_neg (by omega)]; rfl
  | succ n ih =>
    intro s b a h
    have hw : (s.redrawWord b).regs.wf := State.wf_setReg (s := s.drawn) h _ _
    simp only [redrawWords]
    rw [ih _ _ _ hw]
    by_cases hr : b + 1 ≤ a ∧ a < b + 1 + n
    · rw [if_pos hr, if_pos (by omega)]
      simp [redrawWord, show s.draws + 1 + (a - (b + 1)) = s.draws + (a - b) by omega]
    · rw [if_neg hr]
      simp only [redrawWord]
      rw [State.reg_setReg (s := s.drawn) h]
      by_cases hab : b = a
      · subst hab; rw [if_pos rfl, if_pos (by omega)]; simp [nextDraw]
      · rw [if_neg hab, if_neg (by omega)]; simp

/-- A mode switch changes the window, the number of draws and the history, nothing else. -/
theorem State.switchMode_eq (s : State) (m : CMode) :
    s.switchMode m = { s with
      regs := (s.redrawWords s.cfg.mbxBase s.cfg.mbxWords).regs
      draws := s.draws + s.cfg.mbxWords
      hist := s.hist ++ [.mode m] } := by
  unfold switchMode; rw [redrawWords_eq]; rfl

theorem State.wf_switchMode {s : State} (h : s.regs.wf) (m : CMode) : (s.switchMode m).regs.wf := by
  rw [switchMode_eq]; exact State.wf_redrawWords _ _ _ h

theorem State.reg_switchMode {s : State} (h : s.regs.wf) (m : CMode) (a : Nat) :
    (s.switchMode m).reg a =
      if s.cfg.mbxBase ≤ a ∧ a < s.cfg.mbxBase + s.cfg.mbxWords
      then Config.draw (s.draws + (a - s.cfg.mbxBase)) &&& s.cfg.implMask a else s.reg a :=
  State.reg_redrawWords _ _ _ _ h

/-! ## Writes of a storage word by HOST and by CORE -/

/-- The condition of 20_memory R77 and 10_state R48: the write changes the controller mode. -/
abbrev State.modeChanges (s : State) (a : Nat) (v : Word) : Prop :=
  s.cfg.cmodeBinding = .modRm ∧ a = 0 ∧ (s.reg 0).getLsbD 0 ≠ v.getLsbD 0

/-- A HOST write of a storage word that does not change the mode. -/
theorem State.writeStorage_plain {s : State} {a : Nat} {v : Word} (h : ¬ s.modeChanges a v) :
    s.writeStorage a v = (s.setReg a (v &&& s.cfg.implMask a)).emit (.wr a v) := if_neg h

/-- A HOST write of word 0 that changes the mode. -/
theorem State.writeStorage_switch {s : State} {a : Nat} {v : Word} (h : s.modeChanges a v) :
    s.writeStorage a v =
      ((s.setReg a (v &&& s.cfg.implMask a)).emit (.wr a v)).switchMode (modeOfBit (v.getLsbD 0)) := if_pos h

theorem State.coreWrite_plain {s : State} {a : Nat} {v : Word} (h : ¬ s.modeChanges a (v &&& s.cfg.implMask a)) :
    s.coreWrite a v = (s.setReg a (v &&& s.cfg.implMask a)).emit (.core a (v &&& s.cfg.implMask a)) := if_neg h

theorem State.coreWrite_switch {s : State} {a : Nat} {v : Word} (h : s.modeChanges a (v &&& s.cfg.implMask a)) :
    s.coreWrite a v =
      ((s.setReg a (v &&& s.cfg.implMask a)).emit (.core a (v &&& s.cfg.implMask a))).switchMode
        (modeOfBit ((v &&& s.cfg.implMask a).getLsbD 0)) := if_pos h

/-- A HOST write changes the window, the number of draws and the history, nothing else. -/
theorem State.writeStorage_eq (s : State) (a : Nat) (v : Word) :
    s.writeStorage a v = { s with
      regs := (s.writeStorage a v).regs
      draws := (s.writeStorage a v).draws
      hist := (s.writeStorage a v).hist } := by
  by_cases h : s.modeChanges a v
  · rw [writeStorage_switch h, switchMode_eq]; rfl
  · rw [writeStorage_plain h]; rfl

theorem State.wf_writeStorage {s : State} (h : s.regs.wf) (a : Nat) (v : Word) : (s.writeStorage a v).regs.wf := by
  have h1 : ((s.setReg a (v &&& s.cfg.implMask a)).emit (.wr a v)).regs.wf := State.wf_setReg h _ _
  by_cases hm : s.modeChanges a v
  · rw [writeStorage_switch hm]; exact State.wf_switchMode h1 _
  · rw [writeStorage_plain hm]; exact h1

theorem State.wf_coreWrite {s : State} (h : s.regs.wf) (a : Nat) (v : Word) : (s.coreWrite a v).regs.wf := by
  have h1 : ((s.setReg a (v &&& s.cfg.implMask a)).emit (.core a (v &&& s.cfg.implMask a))).regs.wf := State.wf_setReg h _ _
  by_cases hm : s.modeChanges a (v &&& s.cfg.implMask a)
  · rw [coreWrite_switch hm]; exact State.wf_switchMode h1 _
  · rw [coreWrite_plain hm]; exact h1

/-- Word `b` after a HOST write of word `a`: a redrawn mailbox word, the word written, or unchanged. -/
theorem State.reg_writeStorage {s : State} (h : s.regs.wf) (a : Nat) (v : Word) (b : Nat) :
    (s.writeStorage a v).reg b =
      if s.modeChanges a v ∧ s.cfg.mbxBase ≤ b ∧ b < s.cfg.mbxBase + s.cfg.mbxWords
      then Config.draw (s.draws + (b - s.cfg.mbxBase)) &&& s.cfg.implMask b
      else if a = b then v &&& s.cfg.implMask a else s.reg b := by
  by_cases hm : s.modeChanges a v
  · have hw : ((s.setReg a (v &&& s.cfg.implMask a)).emit (.wr a v)).regs.wf := State.wf_setReg h _ _
    rw [writeStorage_switch hm]
    refine (State.reg_switchMode hw _ b).trans ?_
    by_cases hr : s.cfg.mbxBase ≤ b ∧ b < s.cfg.mbxBase + s.cfg.mbxWords
    · exact (if_pos hr).trans (if_pos ⟨hm, hr⟩).symm
    · exact ((if_neg hr).trans (State.reg_setReg h _ _ _)).trans (if_neg fun hh => hr hh.2).symm
  · rw [writeStorage_plain hm, if_neg (fun hh => hm hh.1)]
    simp only [emit_reg, State.reg_setReg h]

theorem State.reg_coreWrite {s : State} (h : s.regs.wf) (a : Nat) (v : Word) (b : Nat) :
    (s.coreWrite a v).reg b =
      if s.modeChanges a (v &&& s.cfg.implMask a) ∧ s.cfg.mbxBase ≤ b ∧ b < s.cfg.mbxBase + s.cfg.mbxWords
      then Config.draw (s.draws + (b - s.cfg.mbxBase)) &&& s.cfg.implMask b
      else if a = b then v &&& s.cfg.implMask a else s.reg b := by
  by_cases hm : s.modeChanges a (v &&& s.cfg.implMask a)
  · have hw : ((s.setReg a (v &&& s.cfg.implMask a)).emit (.core a (v &&& s.cfg.implMask a))).regs.wf :=
      State.wf_setReg h _ _
    rw [coreWrite_switch hm]
    refine (State.reg_switchMode hw _ b).trans ?_
    by_cases hr : s.cfg.mbxBase ≤ b ∧ b < s.cfg.mbxBase + s.cfg.mbxWords
    · exact (if_pos hr).trans (if_pos ⟨hm, hr⟩).symm
    · exact ((if_neg hr).trans (State.reg_setReg h _ _ _)).trans (if_neg fun hh => hr hh.2).symm
  · rw [coreWrite_plain hm, if_neg (fun hh => hm hh.1)]
    simp only [emit_reg, State.reg_setReg h]

/-! ## The bus (20_memory R76, R77) -/

/-- The bus offset of word `reg` (30_encoding R104). -/
theorem busOffset_toNat (reg : RegIdx) : (busOffset reg).toNat = 4 * reg.val := by
  have h := reg.isLt
  simp only [busOffset, BitVec.toNat_shiftLeft, BitVec.toNat_ofNat, Nat.shiftLeft_eq]
  omega

/-- MemRead at a word's own offset, by the class of the word. -/
theorem memRead_busOffset (reg : RegIdx) (s : State) : memRead (busOffset reg) 4 s =
    match s.cfg.wordClass reg.val with
    | .outside => .error (.refuse (.outOfWindow reg.val))
    | .reservedSlot => .error (.refuse (.reservedSlot reg.val))
    | .strobe => .ok (s.nextDraw, (s.drawn).emit (.rd reg.val s.nextDraw))
    | .storage =>
      .ok ((s.reg reg.val &&& s.cfg.implMask reg.val) ||| (s.nextDraw &&& ~~~ (s.cfg.implMask reg.val)),
        (s.drawn).emit (.rd reg.val
          ((s.reg reg.val &&& s.cfg.implMask reg.val) ||| (s.nextDraw &&& ~~~ (s.cfg.implMask reg.val))))) := by
  have h1 : 4 * reg.val % 4 = 0 := by omega
  have h2 : 4 * reg.val / 4 = reg.val := by omega
  cases h : s.cfg.wordClass reg.val <;> simp [memRead, busOffset_toNat, h1, h2, h]

/-- MemWrite at a word's own offset, by the class of the word. -/
theorem memWrite_busOffset (reg : RegIdx) (v : Word) (s : State) : memWrite (busOffset reg) 4 v s =
    match s.cfg.wordClass reg.val with
    | .outside => .error (.refuse (.outOfWindow reg.val))
    | .reservedSlot => .error (.refuse (.reservedSlot reg.val))
    | .strobe => .ok (s.emit (.cmd v))
    | .storage => .ok (s.writeStorage reg.val v) := by
  have h1 : 4 * reg.val % 4 = 0 := by omega
  have h2 : 4 * reg.val / 4 = reg.val := by omega
  cases h : s.cfg.wordClass reg.val <;> simp [memWrite, busOffset_toNat, h1, h2, h]

/-! ## CORE's turns (10_state R47) -/

/-- What a turn of CORE can do: nothing, a write of an owned word, or a change of mode. -/
theorem State.coreTurn_cases (s : State) (c : CoreStep) :
    (s.coreMay c = false ∧ s.coreTurn c = s)
    ∨ (∃ a v, c = .coreWrite a v ∧ s.cfg.owns a = true ∧ s.coreTurn c = s.coreWrite a v)
    ∨ (∃ m, c = .coreMode m ∧ s.cfg.cmodeBinding = .free ∧ m ≠ s.cmode ∧ s.coreTurn c = s.coreMode m) := by
  by_cases h : s.coreMay c
  · cases c with
    | coreWrite a v => exact .inr (.inl ⟨a, v, rfl, h, if_pos h⟩)
    | coreMode m =>
      have h' := h
      simp only [coreMay, decide_eq_true_eq] at h'
      exact .inr (.inr ⟨m, rfl, h'.1, h'.2, if_pos h⟩)
  · exact .inl ⟨by simpa using h, if_neg h⟩

/-- A turn of CORE changes the window, the mode input, the number of draws and the history, nothing else. -/
theorem State.coreTurn_eq (s : State) (c : CoreStep) :
    s.coreTurn c = { s with
      regs := (s.coreTurn c).regs
      cmodeIn := (s.coreTurn c).cmodeIn
      draws := (s.coreTurn c).draws
      hist := (s.coreTurn c).hist } := by
  rcases s.coreTurn_cases c with ⟨_, h⟩ | ⟨a, v, _, _, h⟩ | ⟨m, _, _, _, h⟩
  · rw [h]
  · rw [h]
    by_cases hm : s.modeChanges a (v &&& s.cfg.implMask a)
    · rw [coreWrite_switch hm, switchMode_eq]; rfl
    · rw [coreWrite_plain hm]; rfl
  · rw [h, coreMode, switchMode_eq]

end Sys2Proof.Machine
end

