-- ==== Sys2Proof/Laws/Exec.lean ====
section
/-! SUPPORT. What an operation and a step can do, said once: every later invariant is a case analysis over these. -/

namespace Sys2Proof.Machine

theorem complete_ok (s t : State) : complete s (.ok t) = .next { t with pc := t.pc + 1 } := rfl
theorem complete_error (s : State) (e : Stop) : complete s (.error e) = .next (s.stop e) := rfl

theorem passChecks_none {i : Instr} {s : State} (h : checkInstr s.cfg i = none) : passChecks i s = .ok () := by
  simp [passChecks, h]

theorem passChecks_some {i : Instr} {s : State} {r : RefuseReason} (h : checkInstr s.cfg i = some r) :
    passChecks i s = .error (.refuse r) := by
  simp [passChecks, h]

/-- What the state is, before `pc` advances, when an operation completes. -/
def Completes (i : Instr) (s u : State) : Prop :=
  (busWord i = none ∧ u = { s with temps := u.temps } ∧ (∀ j, j ∉ dests i → u.temp j = s.temp j))
  ∨ (∃ td reg v, i = .rd td reg ∧ (s.cfg.wordClass reg.val = .storage ∨ s.cfg.wordClass reg.val = .strobe)
      ∧ u = ((s.drawn).emit (.rd reg.val v)).setTemp td.val v
      ∧ (s.cfg.wordClass reg.val = .storage →
          v = (s.reg reg.val &&& s.cfg.implMask reg.val) ||| (s.nextDraw &&& ~~~ (s.cfg.implMask reg.val))))
  ∨ (∃ reg ts v, i = .wr reg ts ∧ s.temp ts.val = some v
      ∧ ((s.cfg.wordClass reg.val = .strobe ∧ u = s.emit (.cmd v))
        ∨ (s.cfg.wordClass reg.val = .storage ∧ u = s.writeStorage reg.val v)))

/-- Reading a temporary either gives its value or stops. -/
theorem State.readTemp_cases (s : State) (i : Nat) :
    (∃ v, s.temp i = some v ∧ s.readTemp i = .ok v)
    ∨ (s.temp i = none ∧ s.readTemp i = .error (.fault (.unwrittenTemp i))) := by
  cases h : s.temp i with
  | some v => exact .inl ⟨v, rfl, State.readTemp_some h⟩
  | none => exact .inr ⟨rfl, State.readTemp_none h⟩

theorem passChecks_cases (i : Instr) (s : State) :
    (checkInstr s.cfg i = none ∧ passChecks i s = .ok ())
    ∨ (∃ r, checkInstr s.cfg i = some r ∧ passChecks i s = .error (.refuse r)) := by
  cases h : checkInstr s.cfg i with
  | none => exact .inl ⟨rfl, passChecks_none h⟩
  | some r => exact .inr ⟨r, rfl, passChecks_some h⟩

/-- The outcome of an operation: it completes, or it stops and changes only a mark (60_exceptions R231). -/
def Outcomes (i : Instr) (s : State) : Prop :=
  (∃ e, exec i s = .next (s.stop e)) ∨ (∃ u, exec i s = .next { u with pc := u.pc + 1 } ∧ Completes i s u)

theorem temp_of_setTemp {s : State} {i : Nat} {v : Word} {l : List Nat} (h : i ∈ l) :
    ∀ j, j ∉ l → (s.setTemp i v).temp j = s.temp j := fun _ hj => State.temp_setTemp_ne _ _ _ _ fun e => hj (e ▸ h)

theorem temp_of_setRun {s : State} {i : Temp} {vs : List Word} (hlen : i.val + vs.length ≤ 16) :
    ∀ j, j ∉ runOf i vs.length → (s.setRun i.val vs).temp j = s.temp j := by
  intro j hj
  rw [State.temp_setRun _ _ _ _ hlen, if_neg]
  intro hr
  exact hj (List.mem_map.mpr ⟨j - i.val, List.mem_range.mpr (by omega), by omega⟩)

theorem checkRun_none {i : Temp} {n : Nat} (h : checkRun i n = none) : i.val + n ≤ 16 := by
  unfold checkRun at h; split at h
  · omega
  · cases h

theorem exec_outcomes (i : Instr) (s : State) : Outcomes i s := by
  cases i with
  | rd td reg =>
    simp only [Outcomes, exec, execRd]
    rcases passChecks_cases (.rd td reg) s with ⟨hc, hp⟩ | ⟨r, hc, hp⟩
    · rw [hp]
      rcases checkReg_none.mp hc with hcl | hcl
      · refine .inr ⟨((s.drawn).emit (.rd reg.val ((s.reg reg.val &&& s.cfg.implMask reg.val) |||
          (s.nextDraw &&& ~~~ (s.cfg.implMask reg.val))))).setTemp td.val ((s.reg reg.val &&& s.cfg.implMask reg.val) |||
          (s.nextDraw &&& ~~~ (s.cfg.implMask reg.val))), ?_, .inr (.inl ⟨td, reg, _, rfl, .inl hcl, rfl, fun _ => rfl⟩)⟩
        simp only [memRead_busOffset, hcl]; rfl
      · refine .inr ⟨((s.drawn).emit (.rd reg.val s.nextDraw)).setTemp td.val s.nextDraw, ?_,
          .inr (.inl ⟨td, reg, _, rfl, .inr hcl, rfl, fun h => by rw [hcl] at h; cases h⟩)⟩
        simp only [memRead_busOffset, hcl]; rfl
    · rw [hp]; exact .inl ⟨_, rfl⟩
  | wr reg ts =>
    simp only [Outcomes, exec, execWr]
    rcases passChecks_cases (.wr reg ts) s with ⟨hc, hp⟩ | ⟨r, hc, hp⟩
    · rw [hp]
      rcases s.readTemp_cases ts.val with ⟨v, hv, hr⟩ | ⟨_, hr⟩
      · rw [hr]
        rcases checkReg_none.mp hc with hcl | hcl
        · refine .inr ⟨s.writeStorage reg.val v, ?_, .inr (.inr ⟨reg, ts, v, rfl, hv, .inr ⟨hcl, rfl⟩⟩)⟩
          simp only [bind, Except.bind, memWrite_busOffset, hcl]; rfl
        · refine .inr ⟨s.emit (.cmd v), ?_, .inr (.inr ⟨reg, ts, v, rfl, hv, .inl ⟨hcl, rfl⟩⟩)⟩
          simp only [bind, Except.bind, memWrite_busOffset, hcl]; rfl
      · rw [hr]; exact .inl ⟨_, rfl⟩
    · rw [hp]; exact .inl ⟨_, rfl⟩
  | fext td ts lsb wm1 =>
    simp only [Outcomes, exec, execFext]
    rcases passChecks_cases (.fext td ts lsb wm1) s with ⟨hc, hp⟩ | ⟨r, hc, hp⟩ <;> rw [hp]
    · rcases s.readTemp_cases ts.val with ⟨v, hv, hr⟩ | ⟨_, hr⟩ <;> rw [hr]
      · exact .inr ⟨_, rfl, .inl ⟨rfl, rfl, temp_of_setTemp (by simp [dests])⟩⟩
      · exact .inl ⟨_, rfl⟩
    · exact .inl ⟨_, rfl⟩
  | fins td ts lsb wm1 =>
    simp only [Outcomes, exec, execFins]
    rcases passChecks_cases (.fins td ts lsb wm1) s with ⟨hc, hp⟩ | ⟨r, hc, hp⟩ <;> rw [hp]
    · rcases s.readTemp_cases td.val with ⟨o, ho, hr⟩ | ⟨_, hr⟩ <;> rw [hr]
      · rcases s.readTemp_cases ts.val with ⟨v, hv, hr⟩ | ⟨_, hr⟩ <;> simp only [bind, Except.bind, hr]
        · exact .inr ⟨_, rfl, .inl ⟨rfl, rfl, temp_of_setTemp (by simp [dests])⟩⟩
        · exact .inl ⟨_, rfl⟩
      · exact .inl ⟨_, rfl⟩
    · exact .inl ⟨_, rfl⟩
  | firPack td ts =>
    simp only [Outcomes, exec, execFirPack]
    rcases passChecks_cases (.firPack td ts) s with ⟨hc, hp⟩ | ⟨r, hc, hp⟩ <;> rw [hp]
    · rcases s.readTemp_cases ts.val with ⟨_, _, h0⟩ | ⟨_, h0⟩ <;>
      rcases s.readTemp_cases (ts.val + 1) with ⟨_, _, h1⟩ | ⟨_, h1⟩ <;>
      rcases s.readTemp_cases (ts.val + 2) with ⟨_, _, h2⟩ | ⟨_, h2⟩ <;>
      rcases s.readTemp_cases (ts.val + 3) with ⟨_, _, h3⟩ | ⟨_, h3⟩ <;>
      simp only [bind, Except.bind, h0, h1, h2, h3] <;>
      first
        | exact .inl ⟨_, rfl⟩
        | exact .inr ⟨_, rfl, .inl ⟨rfl, rfl, temp_of_setTemp (by simp [dests])⟩⟩
    · exact .inl ⟨_, rfl⟩
  | firUnpack td ts =>
    simp only [Outcomes, exec, execFirUnpack]
    rcases passChecks_cases (.firUnpack td ts) s with ⟨hc, hp⟩ | ⟨r, hc, hp⟩ <;> rw [hp]
    · rcases s.readTemp_cases ts.val with ⟨v, hv, hr⟩ | ⟨_, hr⟩ <;> rw [hr]
      · exact .inr ⟨_, rfl, .inl ⟨rfl, State.setRun_eq _ _ _, temp_of_setRun (vs := firUnpack v) (checkRun_none hc)⟩⟩
      · exact .inl ⟨_, rfl⟩
    · exact .inl ⟨_, rfl⟩
  | encStd td ts =>
    simp only [Outcomes, exec, execEncStd]
    rcases passChecks_cases (.encStd td ts) s with ⟨hc, hp⟩ | ⟨r, hc, hp⟩ <;> rw [hp]
    · rcases s.readTemp_cases ts.val with ⟨v, hv, hr⟩ | ⟨_, hr⟩ <;> rw [hr]
      · exact .inr ⟨_, rfl, .inl ⟨rfl, State.setRun_eq _ _ _, temp_of_setRun (vs := Machine.encStd v) (checkRun_none hc)⟩⟩
      · exact .inl ⟨_, rfl⟩
    · exact .inl ⟨_, rfl⟩
  | decStd td ts =>
    simp only [Outcomes, exec, execDecStd]
    rcases passChecks_cases (.decStd td ts) s with ⟨hc, hp⟩ | ⟨r, hc, hp⟩ <;> rw [hp]
    · rcases s.readTemp_cases ts.val with ⟨_, _, h0⟩ | ⟨_, h0⟩ <;>
      rcases s.readTemp_cases (ts.val + 1) with ⟨_, _, h1⟩ | ⟨_, h1⟩ <;>
      simp only [bind, Except.bind, h0, h1] <;>
      first
        | exact .inl ⟨_, rfl⟩
        | exact .inr ⟨_, rfl, .inl ⟨rfl, rfl, temp_of_setTemp (by simp [dests])⟩⟩
    · exact .inl ⟨_, rfl⟩
  | encExt td ts =>
    simp only [Outcomes, exec, execEncExt]
    rcases passChecks_cases (.encExt td ts) s with ⟨hc, hp⟩ | ⟨r, hc, hp⟩ <;> rw [hp]
    · rcases s.readTemp_cases ts.val with ⟨v, hv, hr⟩ | ⟨_, hr⟩ <;> rw [hr]
      · exact .inr ⟨_, rfl, .inl ⟨rfl, State.setRun_eq _ _ _, temp_of_setRun (vs := Machine.encExt v) (checkRun_none hc)⟩⟩
      · exact .inl ⟨_, rfl⟩
    · exact .inl ⟨_, rfl⟩
  | decExt td ts =>
    simp only [Outcomes, exec, execDecExt]
    rcases passChecks_cases (.decExt td ts) s with ⟨hc, hp⟩ | ⟨r, hc, hp⟩ <;> rw [hp]
    · rcases s.readTemp_cases ts.val with ⟨_, _, h0⟩ | ⟨_, h0⟩ <;>
      rcases s.readTemp_cases (ts.val + 1) with ⟨_, _, h1⟩ | ⟨_, h1⟩ <;>
      rcases s.readTemp_cases (ts.val + 2) with ⟨_, _, h2⟩ | ⟨_, h2⟩ <;>
      rcases s.readTemp_cases (ts.val + 3) with ⟨_, _, h3⟩ | ⟨_, h3⟩ <;>
      simp only [bind, Except.bind, h0, h1, h2, h3] <;>
      first
        | exact .inl ⟨_, rfl⟩
        | exact .inr ⟨_, rfl, .inl ⟨rfl, rfl, temp_of_setTemp (by simp [dests])⟩⟩
    · exact .inl ⟨_, rfl⟩
  | li td imm =>
    exact .inr ⟨s.setTemp td.val imm, rfl, .inl ⟨rfl, rfl, temp_of_setTemp (by simp [dests])⟩⟩

/-- Inversion of an operation that answers a next state. -/
theorem exec_cases {i : Instr} {s t : State} (h : exec i s = .next t) :
    (∃ e, t = s.stop e) ∨ (∃ u, t = { u with pc := u.pc + 1 } ∧ Completes i s u) := by
  rcases exec_outcomes i s with ⟨e, he⟩ | ⟨u, hu, hc⟩
  · rw [he] at h; exact .inl ⟨e, (Host.Outcome.next.inj h).symm⟩
  · rw [hu] at h; exact .inr ⟨u, (Host.Outcome.next.inj h).symm, hc⟩

/-- Inversion of a step that answers a next state: a turn of CORE, a turn that passes, or a HOST step. -/
theorem step_cases {s t : State} (h : step s = .next t) :
    (∃ c, s.schedule.head? = some (.core c) ∧ t = s.popTurn.coreTurn c)
    ∨ (s.schedule.head? = some .host ∧ s.hostDone ≠ none ∧ t = s.popTurn)
    ∨ (s.hostDone = none ∧ (s.schedule.head? = none ∨ s.schedule.head? = some .host)
        ∧ ((∃ r, decode s.fetch = .error r ∧ t = s.popTurn.stop (.refuse r))
          ∨ (∃ i, decode s.fetch = .ok i ∧ exec i s.popTurn = .next t))) := by
  have hx : ∀ u, u.fetch = s.fetch → hostExec u = .next t →
      (∃ r, decode s.fetch = .error r ∧ t = u.stop (.refuse r)) ∨ (∃ i, decode s.fetch = .ok i ∧ exec i u = .next t) := by
    intro u hu hh
    unfold hostExec at hh
    rw [hu] at hh
    split at hh
    · rename_i i hi; exact .inr ⟨i, hi, hh⟩
    · rename_i r hr; exact .inl ⟨r, hr, (Host.Outcome.next.inj hh).symm⟩
  unfold step at h
  split at h
  · rename_i c rest hs
    exact .inl ⟨c, by rw [hs]; rfl, (Host.Outcome.next.inj h).symm⟩
  · rename_i rest hs
    split at h
    · rename_i hd
      exact .inr (.inr ⟨hd, .inr (by rw [hs]; rfl), hx s.popTurn rfl h⟩)
    · rename_i hd
      exact .inr (.inl ⟨by rw [hs]; rfl, hd, (Host.Outcome.next.inj h).symm⟩)
  · rename_i hs
    split at h
    · rename_i hd
      have hp : s.popTurn = s := by
        have : s.popTurn = { s with schedule := s.schedule.tail } := rfl
        rw [this, hs]; cases s; simp_all
      exact .inr (.inr ⟨hd, .inl (by rw [hs]; rfl), by rw [hp]; exact hx s rfl h⟩)
    · cases h

/-- A run of `n + 1` steps is a step and then a run of `n` steps. -/
theorem run_succ {n : Nat} {s t : State} (h : Sys2Proof.core.run (n + 1) s = .next t) :
    ∃ u, step s = .next u ∧ Sys2Proof.core.run n u = .next t := by
  simp only [Host.Core.run] at h
  split at h
  · rename_i u hu; exact ⟨u, hu, h⟩
  · cases h
  · cases h

theorem run_zero {s t : State} (h : Sys2Proof.core.run 0 s = .next t) : t = s := (Host.Outcome.next.inj h).symm

end Sys2Proof.Machine
end

