-- ==== Sys2Proof/Laws/Meanings.lean ====
section
/-! SUPPORT. Each operation's meaning as one equation, under its checks and its sources' values. -/

namespace Sys2Proof.Machine

/-- A state after an operation that completed: `pc` has advanced. -/
def State.advance (s : State) : State := { s with pc := s.pc + 1 }

@[simp] theorem State.advance_pc (s : State) : s.advance.pc = s.pc + 1 := rfl
@[simp] theorem State.advance_cfg (s : State) : s.advance.cfg = s.cfg := rfl
@[simp] theorem State.advance_regs (s : State) : s.advance.regs = s.regs := rfl
@[simp] theorem State.advance_hist (s : State) : s.advance.hist = s.hist := rfl
@[simp] theorem State.advance_draws (s : State) : s.advance.draws = s.draws := rfl
@[simp] theorem State.advance_refused (s : State) : s.advance.refused = s.refused := rfl
@[simp] theorem State.advance_faulted (s : State) : s.advance.faulted = s.faulted := rfl
@[simp] theorem State.advance_script (s : State) : s.advance.script = s.script := rfl
@[simp] theorem State.advance_schedule (s : State) : s.advance.schedule = s.schedule := rfl
@[simp] theorem State.advance_cmodeIn (s : State) : s.advance.cmodeIn = s.cmodeIn := rfl
@[simp] theorem State.advance_temps (s : State) : s.advance.temps = s.temps := rfl
@[simp] theorem State.advance_temp (s : State) (i : Nat) : s.advance.temp i = s.temp i := rfl
@[simp] theorem State.advance_reg (s : State) (a : Nat) : s.advance.reg a = s.reg a := rfl

theorem exec_rd_storage {td : Temp} {reg : RegIdx} {s : State} (h : s.cfg.wordClass reg.val = .storage) :
    exec (.rd td reg) s =
      .next (((s.drawn).emit (.rd reg.val ((s.reg reg.val &&& s.cfg.implMask reg.val) |||
        (s.nextDraw &&& ~~~ (s.cfg.implMask reg.val))))).setTemp td.val ((s.reg reg.val &&& s.cfg.implMask reg.val) |||
        (s.nextDraw &&& ~~~ (s.cfg.implMask reg.val)))).advance := by
  have hp : passChecks (.rd td reg) s = .ok () := passChecks_none (checkReg_none.mpr (.inl h))
  simp only [exec, execRd, hp, memRead_busOffset, h]; rfl

theorem exec_rd_strobe {td : Temp} {reg : RegIdx} {s : State} (h : s.cfg.wordClass reg.val = .strobe) :
    exec (.rd td reg) s =
      .next (((s.drawn).emit (.rd reg.val s.nextDraw)).setTemp td.val s.nextDraw).advance := by
  have hp : passChecks (.rd td reg) s = .ok () := passChecks_none (checkReg_none.mpr (.inr h))
  simp only [exec, execRd, hp, memRead_busOffset, h]; rfl

theorem exec_wr_storage {reg : RegIdx} {ts : Temp} {s : State} {v : Word} (h : s.cfg.wordClass reg.val = .storage)
    (hv : s.temp ts.val = some v) : exec (.wr reg ts) s = .next (s.writeStorage reg.val v).advance := by
  have hp : passChecks (.wr reg ts) s = .ok () := passChecks_none (checkReg_none.mpr (.inl h))
  simp only [exec, execWr, hp, State.readTemp_some hv, bind, Except.bind, memWrite_busOffset, h]; rfl

theorem exec_wr_strobe {reg : RegIdx} {ts : Temp} {s : State} {v : Word} (h : s.cfg.wordClass reg.val = .strobe)
    (hv : s.temp ts.val = some v) : exec (.wr reg ts) s = .next (s.emit (.cmd v)).advance := by
  have hp : passChecks (.wr reg ts) s = .ok () := passChecks_none (checkReg_none.mpr (.inr h))
  simp only [exec, execWr, hp, State.readTemp_some hv, bind, Except.bind, memWrite_busOffset, h]; rfl

theorem exec_wr_unwritten {reg : RegIdx} {ts : Temp} {s : State} (h : checkInstr s.cfg (.wr reg ts) = none)
    (hv : s.temp ts.val = none) : exec (.wr reg ts) s = .next (s.stop (.fault (.unwrittenTemp ts.val))) := by
  simp only [exec, execWr, passChecks_none h, State.readTemp_none hv]; rfl

theorem exec_fext {td ts : Temp} {lsb wm1 : BitPos} {s : State} {x : Word} (h : checkSpan lsb wm1 = none)
    (hx : s.temp ts.val = some x) :
    exec (.fext td ts lsb wm1) s = .next (s.setTemp td.val (fieldGet x lsb.val (wm1.val + 1))).advance := by
  simp only [exec, execFext, passChecks_none (i := .fext td ts lsb wm1) h, State.readTemp_some hx]; rfl

theorem exec_fins {td ts : Temp} {lsb wm1 : BitPos} {s : State} {old val : Word} (h : checkSpan lsb wm1 = none)
    (ho : s.temp td.val = some old) (hv : s.temp ts.val = some val) :
    exec (.fins td ts lsb wm1) s = .next (s.setTemp td.val (fieldPut old lsb.val (wm1.val + 1) val)).advance := by
  simp only [exec, execFins, passChecks_none (i := .fins td ts lsb wm1) h, State.readTemp_some ho, State.readTemp_some hv,
    bind, Except.bind]
  rfl

theorem exec_firPack {td ts : Temp} {s : State} {a b c d : Word} (h : checkRun ts 4 = none) (ha : s.temp ts.val = some a)
    (hb : s.temp (ts.val + 1) = some b) (hc : s.temp (ts.val + 2) = some c) (hd : s.temp (ts.val + 3) = some d) :
    exec (.firPack td ts) s = .next (s.setTemp td.val (firPack a b c d)).advance := by
  simp only [exec, execFirPack, passChecks_none (i := .firPack td ts) h, State.readTemp_some ha, State.readTemp_some hb,
    State.readTemp_some hc, State.readTemp_some hd, bind, Except.bind]
  rfl

theorem exec_firUnpack {td ts : Temp} {s : State} {x : Word} (h : checkRun td 4 = none) (hx : s.temp ts.val = some x) :
    exec (.firUnpack td ts) s = .next (s.setRun td.val (firUnpack x)).advance := by
  simp only [exec, execFirUnpack, passChecks_none (i := .firUnpack td ts) h, State.readTemp_some hx]; rfl

theorem exec_encStd {td ts : Temp} {s : State} {x : Word} (h : checkRun td 2 = none) (hx : s.temp ts.val = some x) :
    exec (.encStd td ts) s = .next (s.setRun td.val (encStd x)).advance := by
  simp only [exec, execEncStd, passChecks_none (i := .encStd td ts) h, State.readTemp_some hx]; rfl

theorem exec_decStd {td ts : Temp} {s : State} {a b : Word} (h : checkRun ts 2 = none) (ha : s.temp ts.val = some a)
    (hb : s.temp (ts.val + 1) = some b) :
    exec (.decStd td ts) s = .next (s.setTemp td.val (decStd a b)).advance := by
  simp only [exec, execDecStd, passChecks_none (i := .decStd td ts) h, State.readTemp_some ha, State.readTemp_some hb,
    bind, Except.bind]
  rfl

theorem exec_encExt {td ts : Temp} {s : State} {x : Word} (h : checkRun td 4 = none) (hx : s.temp ts.val = some x) :
    exec (.encExt td ts) s = .next (s.setRun td.val (encExt x)).advance := by
  simp only [exec, execEncExt, passChecks_none (i := .encExt td ts) h, State.readTemp_some hx]; rfl

theorem exec_decExt {td ts : Temp} {s : State} {a b c d : Word} (h : checkRun ts 4 = none) (ha : s.temp ts.val = some a)
    (hb : s.temp (ts.val + 1) = some b) (hc : s.temp (ts.val + 2) = some c) (hd : s.temp (ts.val + 3) = some d) :
    exec (.decExt td ts) s = .next (s.setTemp td.val (decExt a b c d)).advance := by
  simp only [exec, execDecExt, passChecks_none (i := .decExt td ts) h, State.readTemp_some ha, State.readTemp_some hb,
    State.readTemp_some hc, State.readTemp_some hd, bind, Except.bind]
  rfl

theorem exec_li {td : Temp} {imm : Word} {s : State} : exec (.li td imm) s = .next (s.setTemp td.val imm).advance := rfl

/-- The run stays within `t0 .. t15` (`WF_RUN`). -/
theorem checkRun_iff (i : Temp) (n : Nat) : checkRun i n = none ↔ i.val + n ≤ 16 := by
  unfold checkRun; split <;> simp <;> omega

theorem checkSpan_iff (lsb wm1 : BitPos) : checkSpan lsb wm1 = none ↔ lsb.val + (wm1.val + 1) ≤ 32 := by
  unfold checkSpan; split <;> simp <;> omega

/-! ## Running a pseudo-operation -/

theorem execSeq_cons {i : Instr} {is : List Instr} {s t : State} (h : exec i s = .next t) (hr : t.refused = none)
    (hf : t.faulted = none) : execSeq (i :: is) s = execSeq is t := by
  simp [execSeq, h, State.clean, hr, hf]

end Sys2Proof.Machine
end

