-- ==== Sys2Proof/Laws/PerInstr.lean ====
section
/-! SUPPORT. Per-instruction family RowMatch: an operation's word spells its own row of the opcode map (30_encoding.md R103). -/

namespace Sys2Proof.Laws.RowMatch

/-- The encoded word, masked by its own row's mask, is that row's pattern. -/
def Statement (i : Instr) : Prop := ∃ r ∈ opTable, r.op = i.op ∧ encode i &&& r.mask = r.pattern

/-- A packed word with the row's number and its must-be-zero fields zero matches the row. -/
theorem of_fields (i : Instr) (r : OpRow) (hr : r ∈ opTable) (ho : r.op = i.op) (hn : opField (encode i) = r.number)
    (hz : r.op.format.zeroFieldsClear (encode i) = true) : Statement i := by
  refine ⟨r, hr, ho, ?_⟩
  obtain ⟨hm, hp⟩ := opTable_forms r hr
  rw [hm, hp]
  exact (Format.mask_iff _ _ _).mpr ⟨hn, hz⟩

theorem rd (td : Temp) (reg : RegIdx) : Statement (.rd td reg) :=
  of_fields _ ⟨.rd, "RD", 0x01, 0x0400000000000000, 0xFC3C03FFFFFFFFFF⟩ (by decide) rfl (opField_packWord ..) <| by
    simp [encode, Op.format, Format.zeroFieldsClear, tsField_packWord, lsbField_packWord, wm1Field_packWord, immField_packWord]

theorem wr (reg : RegIdx) (ts : Temp) : Statement (.wr reg ts) :=
  of_fields _ ⟨.wr, "WR", 0x02, 0x0800000000000000, 0xFFC003FFFFFFFFFF⟩ (by decide) rfl (opField_packWord ..) <| by
    simp [encode, Op.format, Format.zeroFieldsClear, tdField_packWord, lsbField_packWord, wm1Field_packWord, immField_packWord]

theorem fext (td ts : Temp) (lsb wm1 : BitPos) : Statement (.fext td ts lsb wm1) :=
  of_fields _ ⟨.fext, "FEXT", 0x08, 0x2000000000000000, 0xFC03FC00FFFFFFFF⟩ (by decide) rfl (opField_packWord ..) <| by
    simp [encode, Op.format, Format.zeroFieldsClear, regField_packWord, immField_packWord]

theorem fins (td ts : Temp) (lsb wm1 : BitPos) : Statement (.fins td ts lsb wm1) :=
  of_fields _ ⟨.fins, "FINS", 0x09, 0x2400000000000000, 0xFC03FC00FFFFFFFF⟩ (by decide) rfl (opField_packWord ..) <| by
    simp [encode, Op.format, Format.zeroFieldsClear, regField_packWord, immField_packWord]

theorem firPack (td ts : Temp) : Statement (.firPack td ts) :=
  of_fields _ ⟨.firPack, "FIR.PACK", 0x0A, 0x2800000000000000, 0xFC03FFFFFFFFFFFF⟩ (by decide) rfl (opField_packWord ..) <| by
    simp [encode, Op.format, Format.zeroFieldsClear, regField_packWord, lsbField_packWord, wm1Field_packWord, immField_packWord]

theorem firUnpack (td ts : Temp) : Statement (.firUnpack td ts) :=
  of_fields _ ⟨.firUnpack, "FIR.UNPACK", 0x0B, 0x2C00000000000000, 0xFC03FFFFFFFFFFFF⟩ (by decide) rfl (opField_packWord ..) <| by
    simp [encode, Op.format, Format.zeroFieldsClear, regField_packWord, lsbField_packWord, wm1Field_packWord, immField_packWord]

theorem encStd (td ts : Temp) : Statement (.encStd td ts) :=
  of_fields _ ⟨.encStd, "ENC.STD", 0x10, 0x4000000000000000, 0xFC03FFFFFFFFFFFF⟩ (by decide) rfl (opField_packWord ..) <| by
    simp [encode, Op.format, Format.zeroFieldsClear, regField_packWord, lsbField_packWord, wm1Field_packWord, immField_packWord]

theorem decStd (td ts : Temp) : Statement (.decStd td ts) :=
  of_fields _ ⟨.decStd, "DEC.STD", 0x11, 0x4400000000000000, 0xFC03FFFFFFFFFFFF⟩ (by decide) rfl (opField_packWord ..) <| by
    simp [encode, Op.format, Format.zeroFieldsClear, regField_packWord, lsbField_packWord, wm1Field_packWord, immField_packWord]

theorem encExt (td ts : Temp) : Statement (.encExt td ts) :=
  of_fields _ ⟨.encExt, "ENC.EXT", 0x12, 0x4800000000000000, 0xFC03FFFFFFFFFFFF⟩ (by decide) rfl (opField_packWord ..) <| by
    simp [encode, Op.format, Format.zeroFieldsClear, regField_packWord, lsbField_packWord, wm1Field_packWord, immField_packWord]

theorem decExt (td ts : Temp) : Statement (.decExt td ts) :=
  of_fields _ ⟨.decExt, "DEC.EXT", 0x13, 0x4C00000000000000, 0xFC03FFFFFFFFFFFF⟩ (by decide) rfl (opField_packWord ..) <| by
    simp [encode, Op.format, Format.zeroFieldsClear, regField_packWord, lsbField_packWord, wm1Field_packWord, immField_packWord]

theorem li (td : Temp) (imm : Word) : Statement (.li td imm) :=
  of_fields _ ⟨.li, "LI", 0x20, 0x8000000000000000, 0xFC3FFFFF00000000⟩ (by decide) rfl (opField_packWord ..) <| by
    simp [encode, Op.format, Format.zeroFieldsClear, tsField_packWord, regField_packWord, lsbField_packWord, wm1Field_packWord]

end Sys2Proof.Laws.RowMatch
end

