-- ==== Sys2Proof/Tests/Slice0.lean ====
section
/-! SUPPORT. Tests of one step or one function each. Every expected value comes from spec/: the worked encodings of
30_encoding.md R115, the vectors of 95_test_vectors.md, or the rule a test names. Then one witness per obligation that has
hypotheses: a concrete state and operands that meet all of them. -/

namespace Sys2Proof.Tests

open Sys2Proof Sys2Proof.Machine

/-! ## Helpers -/

/-- The reset state with some temporaries written. -/
def withTemps (l : List (Nat × Word)) : State := l.foldl (fun s p => s.setTemp p.1 p.2) State.reset

/-- The next state of an outcome, or `s` where there is none. -/
def after (o : Host.Outcome State Fault Refusal) (s : State) : State :=
  match o with
  | .next t => t
  | .fault _ => s
  | .refused _ => s

/-- The state after the operation word `w`, run as the next step of `s`. -/
def stepWord (s : State) (w : Nat) : State := after (step (s.withFetchWord 64 w)) s

/-- A configuration bound to `mod_rm`. -/
def modRmState (l : List (Nat × Word)) : State :=
  { withTemps l with cfg := { defaultConfig with cmodeBinding := .modRm } }

/-! ## Well-formedness (30_encoding R105): one ill-formed term per check, refused -/

/-- `WF_WINDOW`: word 34 is the first past the window (V10). -/
theorem test_wf_window : checkInstr defaultConfig (.rd 0 34) = some (.outOfWindow 34) := by decide
/-- `WF_SLOT`: word 5 is a reserved slot, word 33 the last (V10). -/
theorem test_wf_slot : checkInstr defaultConfig (.wr 5 0) = some (.reservedSlot 5)
    ∧ checkInstr defaultConfig (.rd 0 33) = some (.reservedSlot 33) := by decide
/-- `WF_SPAN` (V6, V7). -/
theorem test_wf_span : checkInstr defaultConfig (.fext 0 0 1 31) = some (.fieldSpan 1 32)
    ∧ checkInstr defaultConfig (.fins 0 1 31 1) = some (.fieldSpan 31 2)
    ∧ Instr.WellFormed defaultConfig (.fext 0 0 0 31) := by decide
/-- `WF_RUN` (V8, V11): the last admitted runs and the first refused ones. -/
theorem test_wf_run : checkInstr defaultConfig (.firPack 0 13) = some .tempRun
    ∧ checkInstr defaultConfig (.firUnpack 13 0) = some .tempRun ∧ checkInstr defaultConfig (.decStd 0 15) = some .tempRun
    ∧ checkInstr defaultConfig (.encStd 15 0) = some .tempRun ∧ checkInstr defaultConfig (.decExt 0 13) = some .tempRun
    ∧ checkInstr defaultConfig (.encExt 13 0) = some .tempRun ∧ Instr.WellFormed defaultConfig (.encExt 12 0)
    ∧ Instr.WellFormed defaultConfig (.encStd 14 0) := by decide
/-- `WF_OP` (V11). -/
theorem test_wf_op : decode 0x0C00000000000000 = .error (.illegalOp 0x03) := by rfl
/-- `WF_ZERO` (V11), one word per format. -/
theorem test_wf_zero : decode 0x0400080000000001 = .error .reservedBits ∧ decode 0x0840200000000000 = .error .reservedBits
    ∧ decode 0x2000040000000000 = .error .reservedBits ∧ decode 0x4100002000000000 = .error .reservedBits
    ∧ decode 0x8004000000000005 = .error .reservedBits := ⟨rfl, rfl, rfl, rfl, rfl⟩

/-! ## Decoding: a word of every operation, its bits written out from R101 to R103: op, td, ts, reg, lsb, wm1, imm -/

/-- RD t3, IR; the word is V10's. -/
theorem test_decode_rd : decode (0b000001#6 ++ 0b0011#4 ++ 0#4 ++ 0b00000011#8 ++ 0#5 ++ 0#5 ++ 0#32) = .ok (.rd 3 3)
    ∧ decode 0x04C00C0000000000 = .ok (.rd 3 3) := ⟨rfl, rfl⟩
/-- WR OCR, t1; the word is R115's. -/
theorem test_decode_wr : decode (0b000010#6 ++ 0#4 ++ 0b0001#4 ++ 0b00001000#8 ++ 0#5 ++ 0#5 ++ 0#32) = .ok (.wr 8 1)
    ∧ decode 0x0804200000000000 = .ok (.wr 8 1) := ⟨rfl, rfl⟩
/-- FEXT t2, t0, 4, 2; the word is V6's. -/
theorem test_decode_fext : decode (0b001000#6 ++ 0b0010#4 ++ 0b0000#4 ++ 0#8 ++ 0b00100#5 ++ 0b00001#5 ++ 0#32) = .ok (.fext 2 0 4 1)
    ∧ decode 0x2080008100000000 = .ok (.fext 2 0 4 1) := ⟨rfl, rfl⟩
/-- FINS t15, t0, 31, 1; the word is V7's. -/
theorem test_decode_fins : decode (0b001001#6 ++ 0b1111#4 ++ 0b0000#4 ++ 0#8 ++ 0b11111#5 ++ 0b00000#5 ++ 0#32) = .ok (.fins 15 0 31 0)
    ∧ decode 0x27C003E000000000 = .ok (.fins 15 0 31 0) := ⟨rfl, rfl⟩
/-- FIR.PACK t5, t1; the word is P1's. -/
theorem test_decode_firPack : decode (0b001010#6 ++ 0b0101#4 ++ 0b0001#4 ++ 0#8 ++ 0#5 ++ 0#5 ++ 0#32) = .ok (.firPack 5 1)
    ∧ decode 0x2944000000000000 = .ok (.firPack 5 1) := ⟨rfl, rfl⟩
/-- FIR.UNPACK t4, t1; the word is P3's. -/
theorem test_decode_firUnpack : decode (0b001011#6 ++ 0b0100#4 ++ 0b0001#4 ++ 0#8 ++ 0#5 ++ 0#5 ++ 0#32) = .ok (.firUnpack 4 1)
    ∧ decode 0x2D04000000000000 = .ok (.firUnpack 4 1) := ⟨rfl, rfl⟩
/-- ENC.STD t6, t0; the word is P1's. -/
theorem test_decode_encStd : decode (0b010000#6 ++ 0b0110#4 ++ 0b0000#4 ++ 0#8 ++ 0#5 ++ 0#5 ++ 0#32) = .ok (.encStd 6 0)
    ∧ decode 0x4180000000000000 = .ok (.encStd 6 0) := ⟨rfl, rfl⟩
/-- DEC.STD t10, t8; the word is P1's. -/
theorem test_decode_decStd : decode (0b010001#6 ++ 0b1010#4 ++ 0b1000#4 ++ 0#8 ++ 0#5 ++ 0#5 ++ 0#32) = .ok (.decStd 10 8)
    ∧ decode 0x46A0000000000000 = .ok (.decStd 10 8) := ⟨rfl, rfl⟩
/-- ENC.EXT t12, t0; the word is P2's. -/
theorem test_decode_encExt : decode (0b010010#6 ++ 0b1100#4 ++ 0b0000#4 ++ 0#8 ++ 0#5 ++ 0#5 ++ 0#32) = .ok (.encExt 12 0)
    ∧ decode 0x4B00000000000000 = .ok (.encExt 12 0) := ⟨rfl, rfl⟩
/-- DEC.EXT t6, t12; the word is P2's. -/
theorem test_decode_decExt : decode (0b010011#6 ++ 0b0110#4 ++ 0b1100#4 ++ 0#8 ++ 0#5 ++ 0#5 ++ 0#32) = .ok (.decExt 6 12)
    ∧ decode 0x4DB0000000000000 = .ok (.decExt 6 12) := ⟨rfl, rfl⟩
/-- LI t15, 0xFFFFFFFF; the word is V11's. -/
theorem test_decode_li : decode (0b100000#6 ++ 0b1111#4 ++ 0#4 ++ 0#8 ++ 0#5 ++ 0#5 ++ 0xFFFFFFFF#32) = .ok (.li 15 0xFFFFFFFF)
    ∧ decode 0x83C00000FFFFFFFF = .ok (.li 15 0xFFFFFFFF) := ⟨rfl, rfl⟩
/-- The host's view of the first row of R115. -/
theorem test_decodeTableWord : decodeTableWord 64 0x0400080000000000 = some (.rd 0 2) := by rfl

/-! ## The operations, one step each -/

/-- V10: RD t3, IR of `R[3] = 0x181` gives `0x181` in the implemented bits, whatever the draw. -/
theorem test_rd_implemented_bits : ∃ v, (after (exec (.rd 3 3) (State.reset.setReg 3 0x181)) State.reset).temp 3 = some v
    ∧ v &&& 0x1EF = 0x181 := by
  have h : (State.reset.setReg 3 0x181).cfg.wordClass 3 = .storage := by decide
  rw [exec_rd_storage (reg := 3) h]
  refine ⟨_, State.temp_setTemp_self _ 3 _ (by decide), ?_⟩
  generalize (State.reset.setReg 3 0x181).nextDraw = d
  rw [show (State.reset.setReg 3 0x181).reg (3 : RegIdx).val = 0x181 by decide,
    show (State.reset.setReg 3 0x181).cfg.implMask (3 : RegIdx).val = 0x1EF by decide]
  apply BitVec.eq_of_getLsbD_eq
  intro i hi
  interval_cases i <;> simp
/-- V10: RD t0, CMR advances `pc`, records one event and writes `t0`; RD t2, RSV0 is refused and does none of these. -/
theorem test_rd_cmr_and_slot : (stepWord State.reset 0x0400040000000000).pc = 1
    ∧ (stepWord State.reset 0x0400040000000000).hist.length = 1
    ∧ (stepWord State.reset 0x0480140000000000).refused = some (.reservedSlot 5)
    ∧ (stepWord State.reset 0x0480140000000000).pc = 0 := by decide
/-- V10: WR IER, t0 with `t0 = 0xFFFFFFFF` stores `0x1EF`, and the event holds the 32 bits written. -/
theorem test_wr_implemented_bits : (stepWord (withTemps [(0, 0xFFFFFFFF)]) 0x0800100000000000).reg 4 = 0x1EF
    ∧ (stepWord (withTemps [(0, 0xFFFFFFFF)]) 0x0800100000000000).hist = [.wr 4 0xFFFFFFFF] := by decide
/-- V10: WR CMR, t0 is one `CMD` event and stores nothing; WR MOD, t3 with `t3` unwritten faults (P6); WR 255, t0 is refused
before `t0` is read. -/
theorem test_wr_strobe_fault_refusal : (stepWord (withTemps [(0, 4)]) 0x0800040000000000).hist = [.cmd 4]
    ∧ (stepWord (withTemps [(0, 4)]) 0x0800040000000000).regs = State.reset.regs
    ∧ (stepWord State.reset 0x080C000000000000).faulted = some (.unwrittenTemp 3)
    ∧ (stepWord State.reset 0x0803FC0000000000).refused = some (.outOfWindow 255) := by decide
/-- V6. -/
theorem test_fext : (stepWord (withTemps [(0, 0xABCDEF5A)]) 0x2080008100000000).temp 2 = some 1
    ∧ (stepWord (withTemps [(0, 0xABCDEF5A)]) 0x2080011700000000).temp 2 = some 0x00ABCDEF := by decide
/-- V6, V11: the whole word; an unwritten source. -/
theorem test_fext_whole_and_fault : (stepWord (withTemps [(0, 0xABCDEF5A)]) 0x2080001F00000000).temp 2 = some 0xABCDEF5A
    ∧ (stepWord State.reset 0x2040001F00000000).faulted = some (.unwrittenTemp 0) := by decide
/-- V7: only the field cleared; the value cut to the field. -/
theorem test_fins : (stepWord (withTemps [(15, 0xFFFFFFFF), (0, 0)]) 0x27C0008100000000).temp 15 = some 0xFFFFFFCF
    ∧ (stepWord (withTemps [(15, 0xABCDEF5A), (0, 0x1F)]) 0x27C0000300000000).temp 15 = some 0xABCDEF5F := by decide
/-- R153: `td` is read before `ts`. -/
theorem test_fins_order : (stepWord State.reset 0x27C0000300000000).faulted = some (.unwrittenTemp 15) := by decide
/-- V8: S7, and inputs wider than their fields. -/
theorem test_firPack : (stepWord (withTemps [(0, 8), (1, 0), (2, 1), (3, 1)]) 0x2900000000000000).temp 4 = some 0xC8
    ∧ (stepWord (withTemps [(0, 0), (1, 4), (2, 2), (3, 3)]) 0x2900000000000000).temp 4 = some 0x80 := by decide
/-- V8. -/
theorem test_firUnpack : let t := stepWord (withTemps [(4, 0xABCDEF5A)]) 0x2C10000000000000
    (t.temp 0, t.temp 1, t.temp 2, t.temp 3) = (some 10, some 1, some 1, some 0) := by decide
/-- V1. -/
theorem test_encStd : let t := stepWord (withTemps [(0, 0x12345)]) 0x4080000000000000
    (t.temp 2, t.temp 3) = (some 0x68, some 0xA0) := by decide
/-- V2: bits 31:8 of a lane and the padding are ignored. -/
theorem test_decStd : (stepWord (withTemps [(2, 0xAAAAAA24), (3, 0x55555560)]) 0x4508000000000000).temp 4 = some 0x123
    ∧ (stepWord (withTemps [(2, 0x55), (3, 0x5F)]) 0x4508000000000000).temp 4 = some 0x2AA := by decide
/-- V3. -/
theorem test_encExt : let t := stepWord (withTemps [(0, 0x18FEF123)]) 0x4900000000000000
    (t.temp 4, t.temp 5, t.temp 6, t.temp 7) = (some 0xC7, some 0xF7, some 0x89, some 0x18) := by decide
/-- V4. -/
theorem test_decExt :
    (stepWord (withTemps [(4, 0x1FF), (5, 0x100), (6, 0x100), (7, 0x100)]) 0x4E10000000000000).temp 8 = some 0x1FE00000
    ∧ (stepWord (withTemps [(4, 0x12), (5, 0x34), (6, 0x56), (7, 0x78)]) 0x4E10000000000000).temp 8 = some 0x02468ACF := by
  decide
/-- V11: no sign extension. -/
theorem test_li : (stepWord State.reset 0x83C00000FFFFFFFF).temp 15 = some 0xFFFFFFFF
    ∧ (stepWord State.reset 0x83C00000FFFFFFFF).pc = 1 := by decide
/-- V11: a word no row spells. -/
theorem test_illegal_word : (stepWord State.reset 0).refused = some (.illegalOp 0)
    ∧ (stepWord State.reset 0x8004000000000005).refused = some .reservedBits := by decide

/-! ## CORE, the mode, the window, readings -/

/-- P7, schedule C: CORE changes OCR between two operations. -/
theorem test_coreWrite : let t := after (step { State.reset.setReg 8 0xA6 with schedule := [.core (.coreWrite 8 0x5A)] }) State.reset
    t.reg 8 = 0x5A ∧ t.hist = [.core 8 0x5A] ∧ t.pc = 0 := by decide
/-- P8, schedule B: the mode changes and is recorded (R47). -/
theorem test_coreMode : let t := after (step { State.reset with schedule := [.core (.coreMode .operating)] }) State.reset
    t.cmode = .operating ∧ t.hist = [.mode .operating] ∧ t.draws = 13 := by decide
/-- R77: under `mod_rm` a write that changes bit 0 of MOD is recorded as `WR` and then `MODE`. -/
theorem test_wr_mode : let t := after (exec (.wr 0 0) (modRmState [(0, 0)])) State.reset
    t.hist = [.wr 0 0, .mode .operating] ∧ t.draws = 13 := by decide
/-- R32: RESET is the filter view; in OPERATING mode FF, bit 7 of word 16, selects the frame view. -/
theorem test_activeView : State.reset.activeView = .filter
    ∧ ({ State.reset.setReg 16 0x88 with cmodeIn := .operating }).activeView = .extFrame
    ∧ ({ State.reset.setReg 16 0x08 with cmodeIn := .operating }).activeView = .stdFrame := by decide
/-- R32's table at its edges. -/
theorem test_views : View.filter.item 7 = some (.mask 3) ∧ View.filter.item 8 = none ∧ View.stdFrame.item 3 = some (.sdat 0)
    ∧ View.stdFrame.item 11 = none ∧ View.extFrame.item 12 = some (.edat 7) := by decide
/-- R111, R113: names and their words. -/
theorem test_names : regNumber defaultConfig "OCR" = some 8 ∧ regNumber defaultConfig "CDR" = some 31
    ∧ regNumber defaultConfig "EID3" = some 20 ∧ regNumber defaultConfig "MASK0" = some 20
    ∧ regNumber defaultConfig "SDAT7" = some 26 ∧ regNumber defaultConfig "IRAM1" = some 33 := by decide
/-- R112: the place of a field. -/
theorem test_field : defaultConfig.field? .ocr "OCMODE" = some (0, 2) ∧ defaultConfig.field? .fir "FF" = some (7, 1)
    ∧ defaultConfig.field? .cdr "nothing" = none := by decide
/-- R71: the physical address of the last word. -/
theorem test_physAddr : defaultConfig.physAddr 33 = 0x3FF6B084 := by decide
/-- V9. -/
theorem test_enums : OcMode.decode 2 = .named .normal ∧ OcMode.decode 4 = .raw 4 ∧ FrameFormat.decode 1 = .named .extended
    ∧ RtrFlag.decode 0 = .named .none ∧ BusSpeed.decode 500 = .named .kbit500 := by decide
/-- V9: interrupt masks. -/
theorem test_irq : encodeIrq [.receive, .busError, .missError] = 0x181 ∧ decodeIrq 0xFFFFFE10 = []
    ∧ (decodeIrq 0x1FF).length = 8 := by decide
/-- R236: pending and enabled are bits of words 3 and 4. -/
theorem test_pending : (State.reset.setReg 3 0x80).pending .busError = true ∧ State.reset.enabled .receive = false
    ∧ ((State.reset.setReg 3 0x80).setReg 4 0x80).irq = true ∧ (State.reset.setReg 3 0x80).irq = false := by decide
/-- R75 on the bare port. -/
theorem test_misaligned : memWrite 6 4 0 State.reset = .error (.refuse .misaligned)
    ∧ memWrite 32 2 0 State.reset = .error (.refuse .misaligned) := ⟨rfl, rfl⟩
/-- R60: power-on with any contents; the value 0xA5 in OCR, FF in an unimplemented bit dropped. -/
theorem test_powerOn : (State.powerOn defaultConfig [] [] [0x100, 0, 0xFF] .operating).reg 0 = 0
    ∧ (State.powerOn defaultConfig [] [] [0x100, 0, 0xFF] .operating).reg 2 = 0xFF := by decide
/-- Log 6: the family's reset values. -/
theorem test_reset_values : State.reset.reg 0 = 1 ∧ State.reset.reg 2 = 0x0C ∧ State.reset.reg 13 = 0x60 := by decide
/-- R204: a run of no operations is at its end. -/
theorem test_step_ends : step State.reset = .fault .runEnded := by rfl
/-- R206: MOV is FEXT of the whole word; R205's operands. -/
theorem test_mov : (Pseudo.mov 1 0).expand defaultConfig = [.fext 1 0 0 31] ∧ (Pseudo.mov 12 0).conventional = false
    ∧ (Pseudo.idWrStd 13).conventional = true := by decide

/-! ## Witnesses: each obligation's hypotheses are met together -/

/-- A turn of HOST scheduled, or none; a clean state whose next word is `LI t0, 0x7FF`. -/
def liState (l : List Turn) : State := { State.reset with script := [0x80000000000007FF], schedule := l }

theorem witness_EncodeOfDecodeIsTheWord : decode 0x0400080000000000 = .ok (.rd 0 2) := by rfl

theorem witness_RowsTestOpAndZeroFieldsAndAreDisjoint : ∃ r ∈ opTable, (0x0400080000000000 : OpWord) &&& r.mask = r.pattern := by
  decide

/-- Both clauses: an `op` that no row lists, and a listed `op` with a must-be-zero field set; each fetched by a state. -/
theorem witness_WordMatchingNoRowIsRefused :
    (∀ r ∈ opTable, r.number ≠ opField 0) ∧ ({ State.reset with script := [0] }).fetch = 0
    ∧ (∃ r ∈ opTable, r.number = opField 0x0400080000000001 ∧ r.op.format.zeroFieldsClear 0x0400080000000001 = false)
    ∧ ({ State.reset with script := [0x0400080000000001] }).fetch = 0x0400080000000001 := by decide

/-- With no turn scheduled and with a turn of HOST. -/
theorem witness_StepRunsTheDecodedInstruction : decode 0x80000000000007FF = .ok (.li 0 0x7FF) ∧
    ∀ l ∈ [[], [Turn.host]], ((liState l).schedule.head? = none ∨ (liState l).schedule.head? = some .host)
      ∧ (liState l).refused = none ∧ (liState l).faulted = none
      ∧ (liState l).script[(liState l).pc]? = some 0x80000000000007FF := ⟨rfl, by decide⟩

/-- A step of a state with a mark set exists: a turn of CORE. -/
theorem witness_HostStepHasThreeOutcomes : ∃ t,
    step { State.reset with refused := some .tempRun, schedule := [.core (.coreWrite 8 0)] } = .next t := ⟨_, rfl⟩

theorem witness_MachineStopsOnlyWhenHostIsDone : State.reset.schedule = [] ∧ State.reset.normalEnd := by
  refine ⟨rfl, rfl, by decide⟩

/-- A step that completes an operation; also for ScriptAndParametersNeverChange. -/
theorem witness_NothingButCompletionAdvancesPc : ∃ t, step (liState []) = .next t ∧ t.pc = 1 := ⟨_, rfl, rfl⟩
theorem witness_ScriptAndParametersNeverChange : ∃ t, step (liState [.host]) = .next t := ⟨_, rfl⟩

/-- The least field past bit 31. -/
theorem witness_ChecksRefuseWithTheirReasons : 32 < (31 : BitPos).val + ((1 : BitPos).val + 1) := by decide

theorem witness_FailedCheckRefusesFirst : checkInstr State.reset.cfg (.rd 0 34) = some (.outOfWindow 34) := by decide

/-- The second source is the first unwritten one; in a run, the last. -/
theorem witness_FirstUnwrittenSourceFaults : checkInstr State.reset.cfg (.fins 15 0 0 3) = none
    ∧ (sources (.fins 15 0 0 3)).find? (fun k => (withTemps [(15, 1)]).temp k = none) = some 0
    ∧ checkInstr State.reset.cfg (.decExt 0 12) = none
    ∧ (sources (.decExt 0 12)).find? (fun k => (withTemps [(12, 1), (13, 1), (14, 1)]).temp k = none) = some 15 := by decide

/-- One operation of each shape, at the last admitted run. -/
theorem witness_CheckedOperationWithWrittenSourcesCompletes :
    ∀ i ∈ [Instr.rd 0 2, .wr 1 12, .fins 12 13 31 0, .firPack 0 12, .encStd 14 15, .decExt 0 12],
      checkInstr defaultConfig i = none
      ∧ ∀ j ∈ sources i, (withTemps [(12, 1), (13, 1), (14, 1), (15, 1)]).temp j ≠ none := by decide

/-- Both cases: the last storage word, and the command word. -/
theorem witness_ReadGivesStoredBitsAndDraws : State.reset.cfg.wordClass (31 : RegIdx).val = .storage
    ∧ (1 : RegIdx).val = 1 := by decide

theorem witness_ReadOutsideOrOfSlotIsRefused : State.reset.cfg.nwords ≤ (34 : RegIdx).val
    ∧ State.reset.cfg.wordClass (33 : RegIdx).val = .reservedSlot := by decide

/-- Under `free` any storage word; under `mod_rm` a write of word 0 that keeps bit 0. -/
theorem witness_WriteStoresImplementedBits : (withTemps [(1, 0xFFFFFFFE)]).regs.wf
    ∧ (withTemps [(1, 0xFFFFFFFE)]).cfg.wordClass (8 : RegIdx).val = .storage
    ∧ (withTemps [(1, 0xFFFFFFFE)]).temp 1 = some 0xFFFFFFFE
    ∧ (withTemps [(1, 0xFFFFFFFE)]).cfg.cmodeBinding ≠ .modRm
    ∧ ¬ ((modRmState [(1, 3)]).cfg.cmodeBinding = .modRm ∧ (0 : RegIdx).val = 0
        ∧ ((modRmState [(1, 3)]).reg 0).getLsbD 0 ≠ (3 : Word).getLsbD 0) := by decide

theorem witness_WriteOfModeBitRedrawsMailbox : (modRmState [(1, 0)]).regs.wf ∧ (modRmState [(1, 0)]).temp 1 = some 0
    ∧ (modRmState [(1, 0)]).cfg.cmodeBinding = .modRm
    ∧ ((modRmState [(1, 0)]).reg 0).getLsbD 0 ≠ (0 : Word).getLsbD 0
    ∧ ((modRmState [(1, 0)]).cfg.implMask 0).getLsbD 0 = true := by decide

theorem witness_CommandWriteIsAStrobe : (withTemps [(0, 4)]).temp (0 : Temp).val = some 4 := by decide

/-- Each clause at a boundary: past the window, the last slot, the last storage word and the command word. -/
theorem witness_WriteRefusalsComeBeforeTheFault : State.reset.cfg.nwords ≤ (34 : RegIdx).val
    ∧ State.reset.cfg.wordClass (33 : RegIdx).val = .reservedSlot ∧ State.reset.cfg.wordClass (31 : RegIdx).val = .storage
    ∧ State.reset.cfg.wordClass (1 : RegIdx).val = .strobe ∧ State.reset.temp (3 : Temp).val = none := by decide

theorem witness_BarePortRefusesMisaligned : (6 : BusOffset).toNat % 4 ≠ 0 ∧ 2 ≠ 4 := by decide

/-- Reset with `t0 = 0x5A`, a script of one LI, and the state after WR MBX0, t0; CORE is quiet, the mode does not change. -/
def writeState : State := { withTemps [(0, 0x5A)] with script := [0, 0x80400000000007FF] }
def writtenState : State := after (exec (.wr 16 0) writeState) writeState

theorem witness_WrittenWordReadsBackWhileCoreIsQuiet : writeState.regs.wf ∧ writeState.cfg.wordClass (16 : RegIdx).val = .storage
    ∧ writeState.temp (0 : Temp).val = some 0x5A ∧ exec (.wr 16 0) writeState = .next writtenState
    ∧ writtenState.coreQuiet 1
    ∧ ∃ t w, Sys2Proof.core.run 1 writtenState = .next t ∧ t.pc = 2 ∧ exec (.rd 1 16) t = .next w
      ∧ (∀ k x, writtenState.pc ≤ k → k < t.pc → writtenState.script[k]? = some x → writesWord 16 x = false)
      ∧ noModeChange writtenState t := by
  refine ⟨by decide, by decide, by decide, rfl, ?_, _, _, rfl, rfl, rfl, ?_, ?_⟩
  · intro c h; cases h
  · intro k x h1 h2 h3
    have hk : k = 1 := by
      have h1' : 1 ≤ k := h1
      have h2' : k < 2 := h2
      omega
    subst hk
    cases h3; decide
  · intro m h; cases h

theorem witness_WindowBytesAreLittleEndian : State.reset.regs.wf ∧ 3 < 4 := by decide

/-- Each clause at a boundary: a field past bit 31 by one, the topmost field with its source unwritten, and written. -/
theorem witness_FextGivesTheField : 32 < (31 : BitPos).val + ((1 : BitPos).val + 1)
    ∧ (31 : BitPos).val + ((0 : BitPos).val + 1) ≤ 32 ∧ State.reset.temp (0 : Temp).val = none
    ∧ (withTemps [(0, 5)]).temp (0 : Temp).val = some 5 := by decide

theorem witness_FinsChangesOnlyTheField : 32 < (1 : BitPos).val + ((31 : BitPos).val + 1)
    ∧ (0 : BitPos).val + ((31 : BitPos).val + 1) ≤ 32 ∧ State.reset.temp (15 : Temp).val = none
    ∧ (withTemps [(15, 5)]).temp (15 : Temp).val ≠ none ∧ (withTemps [(15, 5)]).temp (0 : Temp).val = none
    ∧ (withTemps [(15, 5), (0, 1)]).temp (15 : Temp).val = some 5 ∧ (withTemps [(15, 5), (0, 1)]).temp (0 : Temp).val = some 1 := by
  decide

/-- Four written temporaries at the last admitted run. -/
def runState : State := withTemps [(12, 8), (13, 0), (14, 1), (15, 1)]

theorem witness_FirPackLaysOutTheRecord : (12 : Temp).val ≤ 12 ∧ runState.temp 12 = some 8 ∧ runState.temp (12 + 1) = some 0
    ∧ runState.temp (12 + 2) = some 1 ∧ runState.temp (12 + 3) = some 1 := by decide
theorem witness_FirUnpackSplitsTheRecord : (12 : Temp).val ≤ 12 ∧ runState.temp (12 : Temp).val = some 8 := by decide
theorem witness_FirPackAndUnpackRoundTrip : (12 : Temp).val ≤ 12 ∧ runState.temp 12 = some 8 ∧ runState.temp (12 + 1) = some 0
    ∧ runState.temp (12 + 2) = some 1 ∧ runState.temp (12 + 3) = some 1 := by decide
theorem witness_EncStdGivesTwoLanes : (14 : Temp).val ≤ 14 ∧ runState.temp (12 : Temp).val = some 8 := by decide
theorem witness_DecStdJoinsTwoLanes : (14 : Temp).val ≤ 14 ∧ runState.temp 14 = some 1 ∧ runState.temp (14 + 1) = some 1 := by
  decide
theorem witness_EncExtGivesFourLanes : (12 : Temp).val ≤ 12 ∧ runState.temp (15 : Temp).val = some 1 := by decide
theorem witness_DecExtJoinsFourLanes : (12 : Temp).val ≤ 12 ∧ runState.temp 12 = some 8 ∧ runState.temp (12 + 1) = some 0
    ∧ runState.temp (12 + 2) = some 1 ∧ runState.temp (12 + 3) = some 1 := by decide
/-- Each clause at its last admitted run, with the widest identifier of each kind. -/
theorem witness_DecodeAfterEncodeIsTheIdentifier : (14 : Temp).val ≤ 14 ∧ (12 : Temp).val ≤ 12
    ∧ (withTemps [(0, 0x7FF)]).temp (0 : Temp).val = some 0x7FF ∧ (0x7FF : Word).toNat ≤ 0x7FF
    ∧ (withTemps [(0, 0x1FFFFFFF)]).temp (0 : Temp).val = some 0x1FFFFFFF ∧ (0x1FFFFFFF : Word).toNat ≤ 0x1FFFFFFF := by decide
theorem witness_EncodeAfterDecodeClearsThePadding : (14 : Temp).val ≤ 14 ∧ (12 : Temp).val ≤ 12 ∧ runState.temp 12 = some 8
    ∧ runState.temp (12 + 1) = some 0 ∧ runState.temp (12 + 2) = some 1 ∧ runState.temp (12 + 3) = some 1
    ∧ runState.temp (14 + 1) = some 1 := by decide
theorem witness_StandardDecodeOfExtendedLanes : (12 : Temp).val ≤ 12 ∧ (withTemps [(0, 0x09F8017F)]).temp (0 : Temp).val = some 0x09F8017F := by
  decide

/-- Each clause: an owned word; word 0 under `mod_rm` with bit 0 changed; a word CORE does not own. -/
theorem witness_CoreWriteChangesAnOwnedWord : State.reset.regs.wf
    ∧ ({ State.reset with schedule := [.core (.coreWrite 8 0x5A)] }).schedule = .core (.coreWrite 8 0x5A) :: []
    ∧ State.reset.cfg.owns 8 = true ∧ State.reset.cfg.cmodeBinding ≠ .modRm
    ∧ (modRmState []).cfg.owns 0 = true ∧ (modRmState []).cfg.cmodeBinding = .modRm
    ∧ ((modRmState []).reg 0).getLsbD 0 ≠ ((0 : Word) &&& (modRmState []).cfg.implMask 0).getLsbD 0
    ∧ State.reset.cfg.owns 1 = false := by decide

/-- Each clause: another mode under `free`; the mode there is; any mode under `mod_rm`. -/
theorem witness_CoreModeRedrawsMailbox : State.reset.regs.wf
    ∧ ({ State.reset with schedule := [.core (.coreMode .operating)] }).schedule = .core (.coreMode .operating) :: []
    ∧ State.reset.cfg.cmodeBinding = .free ∧ CMode.operating ≠ State.reset.cmode ∧ CMode.reset = State.reset.cmode
    ∧ (modRmState []).cfg.cmodeBinding = .modRm := by decide

theorem witness_ControllerModeIsNotHosts : (∃ t, step { State.reset with schedule := [.core (.coreMode .operating)] } = .next t
      ∧ t.cmode ≠ State.reset.cmode) ∧ State.reset.cfg.cmodeBinding = .free ∧ (modRmState []).cfg.cmodeBinding = .modRm :=
  ⟨⟨_, rfl, by decide⟩, rfl, rfl⟩

theorem witness_CoreTurnLeavesHostAlone : State.reset.regs.wf
    ∧ ({ State.reset with schedule := [.core (.coreWrite 28 0xFF), .host] }).schedule = .core (.coreWrite 28 0xFF) :: [.host] := by
  decide

theorem witness_EveryStepKeepsTheInvariant : (State.powerOn defaultConfig [0x0400080000000000] [] [] .operating).Inv
    ∧ ∃ t, step (State.powerOn defaultConfig [0x0400080000000000] [] [] .operating) = .next t := by
  have h : ∀ a, (State.powerOn defaultConfig [0x0400080000000000] [] [] .operating).reg a = 0 := fun a => by
    show Memory.unlisted ++ Memory.unlisted ++ Memory.unlisted ++ Memory.unlisted = (0 : Word); decide
  exact ⟨⟨by decide, fun a => by rw [h a]; simp⟩, _, rfl⟩

theorem witness_PowerOnStatesAreAnyContents : ∃ s, s = State.powerOn defaultConfig [] [.host] [0xFF] .operating
    ∧ s.cfg.cmodeBinding = .free := ⟨_, rfl, by decide⟩

/-- A run of two steps, one of them CORE's. -/
theorem witness_BusEventsFollowTheScript : ∃ t, Sys2Proof.core.run 2
    { withTemps [(0, 4)] with script := [0x0800040000000000], schedule := [.core (.coreWrite 8 0x5A)] } = .next t
    ∧ t.hist = [.core 8 0x5A, .cmd 4] := ⟨_, rfl, rfl⟩

theorem witness_WordHoldsUntilAStepChangesIt : writtenState.regs.wf ∧ writtenState.coreQuiet 1
    ∧ ∃ t, Sys2Proof.core.run 1 writtenState = .next t ∧ noModeChange writtenState t
      ∧ ∀ k x, writtenState.pc ≤ k → k < t.pc → writtenState.script[k]? = some x → writesWord 16 x = false := by
  refine ⟨by decide, fun c h => (by cases h), _, rfl, fun m h => (by cases h), ?_⟩
  intro k x h1 h2 h3
  have h1' : 1 ≤ k := h1
  have h2' : k < 2 := h2
  obtain rfl : k = 1 := by omega
  cases h3; decide

theorem witness_PureOperationsTouchOnlyTheirTemps : busWord (.encStd 2 0) = none
    ∧ ∃ t, exec (.encStd 2 0) (withTemps [(0, 0x123)]) = .next t := ⟨rfl, _, rfl⟩
theorem witness_ReadFrame : ∃ t, exec (.rd 0 2) State.reset = .next t := ⟨_, rfl⟩
/-- A plain write, a write of the command word, and a write that changes the mode. -/
theorem witness_WriteFrame : (withTemps [(0, 4)]).regs.wf ∧ (∃ t, exec (.wr 8 0) (withTemps [(0, 4)]) = .next t)
    ∧ (∃ t, exec (.wr 1 0) (withTemps [(0, 4)]) = .next t) ∧ (modRmState [(0, 4)]).regs.wf
    ∧ ∃ t, exec (.wr 0 0) (modRmState [(0, 4)]) = .next t := ⟨by decide, ⟨_, rfl⟩, ⟨_, rfl⟩, by decide, _, rfl⟩

theorem witness_WindowLayout : defaultConfig.rsvWords = 1 ∧ 12 < defaultConfig.mbxWords
    ∧ View.extFrame.item 12 = some (.edat 7) := by decide

theorem witness_EnumDecodeNamesOrReturnsRaw : (∀ m ∈ [RtrFlag.none, .set], ∀ m' ∈ [RtrFlag.none, .set], m.encode = m'.encode → m = m')
    ∧ RtrFlag.set ∈ [RtrFlag.none, .set] ∧ ∀ m ∈ [RtrFlag.none, .set], m.encode ≠ 2 := by decide

/-- Both clauses: a written temporary; the topmost field of OCR, bit 7. -/
theorem witness_MovCopiesAndFieldReadGivesTheStoredField : (withTemps [(0, 7)]).temp (0 : Temp).val = some 7
    ∧ (withTemps [(0, 7)]).refused = none ∧ (withTemps [(0, 7)]).faulted = none
    ∧ State.reset.cfg.wordClass (8 : RegIdx).val = .storage ∧ StoredField State.reset.cfg (8 : RegIdx).val 7 0 := by
  unfold StoredField; decide

theorem reset_inv_ocr : (State.powerOn defaultConfig [] [] [] .reset).Inv := by
  have h : ∀ a, (State.powerOn defaultConfig [] [] [] .reset).reg a = 0 := fun a => by
    show Memory.unlisted ++ Memory.unlisted ++ Memory.unlisted ++ Memory.unlisted = (0 : Word); decide
  exact ⟨by decide, fun a => by rw [h a]; simp⟩

theorem witness_FieldWriteChangesOneField : ((State.powerOn defaultConfig [] [] [] .reset).setTemp 0 2).Inv
    ∧ ((State.powerOn defaultConfig [] [] [] .reset).setTemp 0 2).temp (0 : Temp).val = some 2
    ∧ ((State.powerOn defaultConfig [] [] [] .reset).setTemp 0 2).refused = none
    ∧ ((State.powerOn defaultConfig [] [] [] .reset).setTemp 0 2).faulted = none
    ∧ defaultConfig.wordClass (8 : RegIdx).val = .storage ∧ StoredField defaultConfig (8 : RegIdx).val 0 1 ∧ (0 : Temp).val ≠ 15 :=
  ⟨reset_inv_ocr, by decide, by decide, by decide, by decide, by unfold StoredField; decide, by decide⟩

theorem witness_CommandFieldWriteIsOneStrobe : (withTemps [(0, 1)]).refused = none ∧ (withTemps [(0, 1)]).faulted = none
    ∧ (31 : BitPos).val + ((0 : BitPos).val + 1) ≤ 32 ∧ (0 : Temp).val ≠ 15 ∧ (withTemps [(0, 1)]).temp (0 : Temp).val = some 1 := by
  decide

theorem witness_FrameInfoWriteAndRead : let s := withTemps [(11, 8), (12, 0), (13, 1), (14, 1)]
    s.refused = none ∧ s.faulted = none ∧ s.regs.wf ∧ Standard s.cfg ∧ (11 : Temp).val ≤ 11 ∧ s.temp 11 = some 8
    ∧ s.temp (11 + 1) = some 0 ∧ s.temp (11 + 2) = some 1 ∧ s.temp (11 + 3) = some 1 := by
  refine ⟨rfl, rfl, by decide, ⟨rfl, rfl, rfl, rfl⟩, by decide, by decide, by decide, by decide, by decide⟩

theorem witness_StandardIdThroughTheRegisters : (withTemps [(13, 0x123)]).refused = none ∧ (withTemps [(13, 0x123)]).faulted = none
    ∧ (withTemps [(13, 0x123)]).regs.wf ∧ Standard (withTemps [(13, 0x123)]).cfg ∧ (13 : Temp).val ≤ 13
    ∧ (withTemps [(13, 0x123)]).temp (13 : Temp).val = some 0x123 :=
  ⟨rfl, rfl, by decide, ⟨rfl, rfl, rfl, rfl⟩, by decide, by decide⟩

theorem witness_ExtendedIdThroughTheRegisters : (withTemps [(11, 0x09F8017F)]).refused = none
    ∧ (withTemps [(11, 0x09F8017F)]).faulted = none ∧ (withTemps [(11, 0x09F8017F)]).regs.wf
    ∧ Standard (withTemps [(11, 0x09F8017F)]).cfg ∧ (11 : Temp).val ≤ 11
    ∧ (withTemps [(11, 0x09F8017F)]).temp (11 : Temp).val = some 0x09F8017F :=
  ⟨rfl, rfl, by decide, ⟨rfl, rfl, rfl, rfl⟩, by decide, by decide⟩

end Sys2Proof.Tests
end

/-! ## The script and the parameters (20_memory.md R88, 00_scope.md R17) -/

namespace Sys2Proof.Machine

@[simp] theorem State.writeStorage_cfg (s : State) (a : Nat) (v : Word) : (s.writeStorage a v).cfg = s.cfg := by
  rw [writeStorage_eq]
@[simp] theorem State.writeStorage_script (s : State) (a : Nat) (v : Word) : (s.writeStorage a v).script = s.script := by
  rw [writeStorage_eq]

@[simp] theorem State.coreTurn_cfg (s : State) (c : CoreStep) : (s.coreTurn c).cfg = s.cfg := by rw [coreTurn_eq]
@[simp] theorem State.coreTurn_script (s : State) (c : CoreStep) : (s.coreTurn c).script = s.script := by rw [coreTurn_eq]

/-- An operation that completes has written temporaries, read the bus or written the bus; none reaches the script. -/
theorem Completes.keeps_script_cfg {i : Instr} {s u : State} (h : Completes i s u) :
    u.script = s.script ∧ u.cfg = s.cfg := by
  rcases h with ⟨_, hu, _⟩ | ⟨_, _, _, _, _, rfl, _⟩ | ⟨_, _, _, _, _, ⟨_, rfl⟩ | ⟨_, rfl⟩⟩
  · rw [hu]; exact ⟨rfl, rfl⟩
  all_goals simp

theorem exec_keeps_script_cfg {i : Instr} {s t : State} (h : exec i s = .next t) :
    t.script = s.script ∧ t.cfg = s.cfg := by
  rcases exec_cases h with ⟨e, rfl⟩ | ⟨u, rfl, hu⟩
  · simp
  · exact hu.keeps_script_cfg

/-- Settles O11: a step is a turn of CORE, a turn that passes, a refusal at decoding, or an operation's meaning. -/
theorem scriptAndParametersNeverChange : Obligations.ScriptAndParametersNeverChange := by
  intro s t h
  rcases step_cases h with ⟨c, _, rfl⟩ | ⟨_, _, rfl⟩ | ⟨_, _, ⟨r, _, rfl⟩ | ⟨i, _, hi⟩⟩
  · simp
  · simp
  · simp
  · exact exec_keeps_script_cfg (s := s.popTurn) hi

/-! ## The bare bus port (20_memory.md R75) -/

theorem memRead_misaligned {off : BusOffset} {size : Nat} (h : off.toNat % 4 ≠ 0 ∨ size ≠ 4) (s : State) :
    memRead off size s = .error (.refuse .misaligned) := if_pos h

theorem memWrite_misaligned {off : BusOffset} {size : Nat} (h : off.toNat % 4 ≠ 0 ∨ size ≠ 4) (v : Word) (s : State) :
    memWrite off size v s = .error (.refuse .misaligned) := if_pos h

theorem memRead_busOffset_ne_misaligned (reg : RegIdx) (s : State) :
    memRead (busOffset reg) 4 s ≠ .error (.refuse .misaligned) := by
  rw [memRead_busOffset]
  cases s.cfg.wordClass reg.val <;> simp

theorem memWrite_busOffset_ne_misaligned (reg : RegIdx) (v : Word) (s : State) :
    memWrite (busOffset reg) 4 v s ≠ .error (.refuse .misaligned) := by
  rw [memWrite_busOffset]
  cases s.cfg.wordClass reg.val <;> simp

/-- Settles O22: the port tests alignment and width first, and the offset of a word index passes the test. -/
theorem barePortRefusesMisaligned : Obligations.BarePortRefusesMisaligned :=
  ⟨fun _ _ v s h => ⟨memRead_misaligned h s, memWrite_misaligned h v s⟩,
    fun reg v s => ⟨busOffset_toNat reg, memRead_busOffset_ne_misaligned reg s, memWrite_busOffset_ne_misaligned reg v s⟩⟩

end Sys2Proof.Machine

/-! ## Words that match no row (30_encoding.md R106) -/

namespace Sys2Proof

/-- A word matches a row of the table when its `op` is the row's number and the row's must-be-zero fields are zero. -/
theorem opTable_match_iff {r : OpRow} (hr : r ∈ opTable) (x : OpWord) :
    x &&& r.mask = r.pattern ↔ r.number = opField x ∧ r.op.format.zeroFieldsClear x = true := by
  obtain ⟨hmask, hpattern⟩ := opTable_forms r hr
  rw [hmask, hpattern, Format.mask_iff, eq_comm]

theorem no_row_matches_iff (x : OpWord) :
    (∀ r ∈ opTable, x &&& r.mask ≠ r.pattern) ↔
      ¬ ∃ r ∈ opTable, r.number = opField x ∧ r.op.format.zeroFieldsClear x = true := by
  simp only [not_exists, not_and]
  exact forall₂_congr fun r hr => by rw [Ne, opTable_match_iff hr, not_and]

/-- No two rows share an `op` value (checked on the table's literals). -/
theorem opTable_number_inj : ∀ r ∈ opTable, ∀ r' ∈ opTable, r.number = r'.number → r = r' := by decide

/-- Decoding a word that matches no row: the reason tells whether some row lists its `op`. -/
theorem decode_of_no_row_matches {x : OpWord} (h : ∀ r ∈ opTable, x &&& r.mask ≠ r.pattern) :
    decode x = .error (if opTable.any (·.number = opField x) then .reservedBits else .illegalOp (opField x)) := by
  have hnone : opTable.find? (·.spells x) = none :=
    List.find?_eq_none.mpr fun r hr => by simpa [OpRow.spells] using h r hr
  simp only [decode, hnone]

theorem decode_of_op_not_listed {x : OpWord} (h : ∀ r ∈ opTable, r.number ≠ opField x) :
    decode x = .error (.illegalOp (opField x)) := by
  have hmatch : ∀ r ∈ opTable, x &&& r.mask ≠ r.pattern :=
    fun r hr hx => h r hr ((opTable_match_iff hr x).mp hx).1
  rw [decode_of_no_row_matches hmatch, if_neg (by simpa using h)]

/-- The row that lists `op` is the only one that could match, so a must-be-zero field set in it leaves no match. -/
theorem decode_of_zero_field_set {x : OpWord} {r : OpRow} (hr : r ∈ opTable) (hop : r.number = opField x)
    (hz : r.op.format.zeroFieldsClear x = false) : decode x = .error .reservedBits := by
  have hmatch : ∀ r' ∈ opTable, x &&& r'.mask ≠ r'.pattern := by
    intro r' hr' hx
    obtain ⟨hop', hz'⟩ := (opTable_match_iff hr' x).mp hx
    obtain rfl := opTable_number_inj r hr r' hr' (hop.trans hop'.symm)
    exact Bool.false_ne_true (hz.symm.trans hz')
  rw [decode_of_no_row_matches hmatch, if_pos (by simpa using ⟨r, hr, hop⟩)]

end Sys2Proof

namespace Sys2Proof.Machine

/-- A HOST step on a word that decoding refuses sets the mark and does nothing else (60_exceptions.md R231). -/
theorem hostExec_of_decode_error {s : State} {e : RefuseReason} (h : decode s.fetch = .error e) :
    hostExec s = .next { s with refused := some e } := by
  simp only [hostExec, h, State.stop_refuse]

/-- Settles O4: matching a row is a condition on `op` and the must-be-zero fields; whichever of the two fails, `decode`
gives its reason and the HOST step is that of a refused decoding. -/
theorem wordMatchingNoRowIsRefused : Obligations.WordMatchingNoRowIsRefused := by
  refine ⟨by decide, by decide, fun x => ⟨no_row_matches_iff x, fun h => ?_, fun ⟨r, hr, hop, hz⟩ => ?_⟩⟩
  · have hx := decode_of_op_not_listed h
    exact ⟨hx, fun s hs => hostExec_of_decode_error (hs ▸ hx)⟩
  · have hx := decode_of_zero_field_set hr hop hz
    exact ⟨hx, fun s hs => hostExec_of_decode_error (hs ▸ hx)⟩

end Sys2Proof.Machine

/-! ## WR: its checks, its temporary, its strobe (40_register_access.md R136, R138) -/

namespace Sys2Proof.Machine

/-- The checks of 30_encoding R105 come before anything else an operation does. -/
theorem exec_checks_first (i : Instr) (s : State) : ∃ f, exec i s = complete s (passChecks i s >>= f) := by
  cases i with
  | li td imm => exact ⟨fun _ => .ok (s.setTemp td.val imm), rfl⟩
  | _ => exact ⟨_, rfl⟩

/-- An operation that fails a check is refused for that check's reason, whatever the temporaries hold. -/
theorem exec_of_check_refuses {i : Instr} {s : State} {r : RefuseReason} (h : checkInstr s.cfg i = some r) :
    exec i s = .next { s with refused := some r } := by
  obtain ⟨f, hf⟩ := exec_checks_first i s
  rw [hf, passChecks_some h]; rfl

theorem checkReg_of_past_window {cfg : Config} {a : Nat} (h : cfg.nwords ≤ a) : checkReg cfg a = some (.outOfWindow a) := by
  simp only [checkReg, (cfg.wordClass_outside a).mpr h]

theorem checkReg_of_reservedSlot {cfg : Config} {a : Nat} (h : cfg.wordClass a = .reservedSlot) :
    checkReg cfg a = some (.reservedSlot a) := by
  simp only [checkReg, h]

/-- Settles O21: a word past the window or of a reserved slot fails its check, which comes before the temporary is read;
a storage word and the strobe pass, so an unwritten temporary then faults. -/
theorem writeRefusalsComeBeforeTheFault : Obligations.WriteRefusalsComeBeforeTheFault := by
  refine fun reg ts s => ⟨fun hpast => ?_, fun hslot => ?_, fun hclass hnone => ?_⟩
  · exact exec_of_check_refuses (checkReg_of_past_window hpast)
  · exact exec_of_check_refuses (checkReg_of_reservedSlot hslot)
  · exact exec_wr_unwritten (checkReg_none.mpr hclass) hnone

/-- Settles O20: word 1 is the strobe in every configuration, and a write of the strobe only records the command. -/
theorem commandWriteIsAStrobe : Obligations.CommandWriteIsAStrobe :=
  fun _ s _ hv => exec_wr_strobe (reg := 1) s.cfg.wordClass_one hv

end Sys2Proof.Machine

/-! ## Enumerations: decoding a value (41_bitfield.md R161) -/

namespace Sys2Proof.Machine

/-- The two outcomes of decoding a value, whether or not the members' values differ. -/
theorem enumDecode_cases {α : Type} (members : List α) (enc : α → Nat) (v : Nat) :
    (∃ m ∈ members, enc m = v ∧ enumDecode members enc v = .named m) ∨
    ((∀ m ∈ members, enc m ≠ v) ∧ enumDecode members enc v = .raw v) := by
  cases hfind : members.find? (fun m => enc m = v) with
  | some m =>
    exact .inl ⟨m, List.mem_of_find?_eq_some hfind, by simpa using List.find?_some hfind,
      by simp only [enumDecode, hfind]⟩
  | none => exact .inr ⟨by simpa using hfind, by simp only [enumDecode, hfind]⟩

/-- Settles O53: a member's value matches some member, which is that member because the values differ; a value of no
member leaves only the raw outcome. -/
theorem enumDecodeNamesOrReturnsRaw : Obligations.EnumDecodeNamesOrReturnsRaw := by
  refine fun α members enc hinj => ⟨fun m hm => ?_, fun v hv => ?_⟩
  · obtain ⟨m', hm', heq, hdec⟩ | ⟨hno, _⟩ := enumDecode_cases members enc (enc m)
    · rwa [hinj m' hm' m hm heq] at hdec
    · exact absurd rfl (hno m hm)
  · obtain ⟨m, hm, heq, _⟩ | ⟨_, hdec⟩ := enumDecode_cases members enc v
    · exact absurd heq (hv m hm)
    · exact hdec

end Sys2Proof.Machine

/-! ## The script counter (43_harness_and_macros.md R203) -/

namespace Sys2Proof.Machine

@[simp] theorem State.writeStorage_pc (s : State) (a : Nat) (v : Word) : (s.writeStorage a v).pc = s.pc := by
  rw [writeStorage_eq]
@[simp] theorem State.writeStorage_refused (s : State) (a : Nat) (v : Word) : (s.writeStorage a v).refused = s.refused := by
  rw [writeStorage_eq]
@[simp] theorem State.writeStorage_faulted (s : State) (a : Nat) (v : Word) : (s.writeStorage a v).faulted = s.faulted := by
  rw [writeStorage_eq]

@[simp] theorem State.coreTurn_pc (s : State) (c : CoreStep) : (s.coreTurn c).pc = s.pc := by rw [coreTurn_eq]

/-- HOST has a further step while both marks are clear and a script word is left (R204). -/
theorem State.hostDone_eq_none (s : State) :
    s.hostDone = none ↔ s.refused = none ∧ s.faulted = none ∧ s.pc < s.script.length := by
  cases hr : s.refused <;> cases hf : s.faulted <;> simp [hostDone, hr, hf]

/-- Stopping leaves a mark set. -/
theorem State.stop_not_clean (s : State) (e : Stop) : ¬ ((s.stop e).refused = none ∧ (s.stop e).faulted = none) := by
  cases e <;> simp

/-- What an operation does before `pc` advances reaches neither `pc` nor a mark. -/
theorem Completes.keeps_pc_marks {i : Instr} {s u : State} (h : Completes i s u) :
    u.pc = s.pc ∧ u.refused = s.refused ∧ u.faulted = s.faulted := by
  rcases h with ⟨_, hu, _⟩ | ⟨_, _, _, _, _, rfl, _⟩ | ⟨_, _, _, _, _, ⟨_, rfl⟩ | ⟨_, rfl⟩⟩
  · rw [hu]; exact ⟨rfl, rfl, rfl⟩
  all_goals simp

/-- An operation either stops, with `pc` kept and a mark set, or completes, with `pc` advanced and the marks kept. -/
theorem exec_pc_marks {i : Instr} {s t : State} (h : exec i s = .next t) :
    (t.pc = s.pc ∧ ¬ (t.refused = none ∧ t.faulted = none))
    ∨ (t.pc = s.pc + 1 ∧ t.refused = s.refused ∧ t.faulted = s.faulted) := by
  rcases exec_cases h with ⟨e, rfl⟩ | ⟨u, rfl, hu⟩
  · exact .inl ⟨s.stop_pc e, s.stop_not_clean e⟩
  · obtain ⟨hpc, hmarks⟩ := hu.keeps_pc_marks
    exact .inr ⟨congrArg (· + 1) hpc, hmarks⟩

/-- A step keeps `pc`, and then it is CORE's, or HOST had no further step, or HOST stopped; or it is HOST's, HOST had a
further step, and `pc` advances with the marks clear. -/
theorem step_pc_marks {s t : State} (h : step s = .next t) :
    (t.pc = s.pc ∧ ((∃ c, s.schedule.head? = some (.core c)) ∨ s.hostDone ≠ none
        ∨ ¬ (t.refused = none ∧ t.faulted = none)))
    ∨ (t.pc = s.pc + 1 ∧ (∀ c, s.schedule.head? ≠ some (.core c)) ∧ s.hostDone = none
        ∧ t.refused = none ∧ t.faulted = none) := by
  rcases step_cases h with ⟨c, hcore, rfl⟩ | ⟨_, hdone, rfl⟩ | ⟨hdone, hturn, ⟨r, _, rfl⟩ | ⟨i, _, hexec⟩⟩
  · exact .inl ⟨by simp, .inl ⟨c, hcore⟩⟩
  · exact .inl ⟨by simp, .inr (.inl hdone)⟩
  · exact .inl ⟨by simp, .inr (.inr (s.popTurn.stop_not_clean _))⟩
  · rcases exec_pc_marks hexec with ⟨hpc, hmark⟩ | ⟨hpc, href, hfault⟩
    · exact .inl ⟨hpc, .inr (.inr hmark)⟩
    · obtain ⟨hr, hf, _⟩ := s.hostDone_eq_none.mp hdone
      have hhost : ∀ c, s.schedule.head? ≠ some (.core c) := by rcases hturn with ht | ht <;> simp [ht]
      exact .inr ⟨hpc, hhost, hdone, href.trans hr, hfault.trans hf⟩

/-- Settles O10: where `pc` is kept, one of the conditions for completing fails; where it advances, all of them hold. -/
theorem nothingButCompletionAdvancesPc : Obligations.NothingButCompletionAdvancesPc := by
  intro s t h
  rcases step_pc_marks h with ⟨hpc, hwhy⟩ | ⟨hpc, hhost, hdone, hclean⟩
  · refine ⟨.inl hpc, fun hadv => absurd (hpc.symm.trans hadv) (Nat.succ_ne_self _).symm, ?_⟩
    rintro ⟨hhost, hr, hf, hlt, hclean⟩
    rcases hwhy with ⟨c, hcore⟩ | hdone | hmark
    · exact absurd hcore (hhost c)
    · exact absurd (s.hostDone_eq_none.mpr ⟨hr, hf, hlt⟩) hdone
    · exact absurd hclean hmark
  · obtain ⟨hr, hf, hlt⟩ := s.hostDone_eq_none.mp hdone
    exact ⟨.inr hpc, fun _ => ⟨hhost, hr, hf, hlt, hclean⟩, fun _ => hpc⟩

end Sys2Proof.Machine

/-! ## How a HOST step ends (60_exceptions.md R231) -/

namespace Sys2Proof.Machine

theorem hostExec_of_decode_ok {s : State} {i : Instr} (h : decode s.fetch = .ok i) : hostExec s = exec i s := by
  simp only [hostExec, h]

/-- HOST has no further step once a mark is set (R204). -/
theorem State.hostDone_of_marked {s : State} (h : s.refused ≠ none ∨ s.faulted ≠ none) : s.hostDone ≠ none := by
  intro hdone
  obtain ⟨hr, hf, _⟩ := s.hostDone_eq_none.mp hdone
  exact h.elim (· hr) (· hf)

theorem State.not_normalEnd_of_marked {s : State} (h : s.refused ≠ none ∨ s.faulted ≠ none) : ¬ s.normalEnd := by
  rintro ⟨_, hclean⟩
  simp only [clean, Option.isNone_iff_eq_none, decide_eq_true_eq] at hclean
  exact h.elim (· hclean.1) (· hclean.2)

/-- With a mark set a step is a turn of CORE or a turn that passes, and neither reaches the harness components. -/
theorem step_of_marked {s t : State} (h : step s = .next t) (hmark : s.refused ≠ none ∨ s.faulted ≠ none) :
    t.pc = s.pc ∧ t.temps = s.temps ∧ t.refused = s.refused ∧ t.faulted = s.faulted := by
  rcases step_cases h with ⟨c, _, rfl⟩ | ⟨_, _, rfl⟩ | ⟨hdone, _⟩
  · rw [State.coreTurn_eq]; exact ⟨rfl, rfl, rfl, rfl⟩
  · exact ⟨rfl, rfl, rfl, rfl⟩
  · exact absurd hdone (State.hostDone_of_marked hmark)

/-- Stopping sets one mark and nothing else. -/
theorem State.stop_eq_refused_or_faulted (s : State) (e : Stop) :
    (∃ r, s.stop e = { s with refused := some r }) ∨ (∃ f, s.stop e = { s with faulted := some f }) := by
  cases e with
  | refuse r => exact .inl ⟨r, rfl⟩
  | fault f => exact .inr ⟨f, rfl⟩

/-- A HOST step stops, at decoding or in the operation, or it completes the decoded operation. -/
theorem hostExec_outcomes (s : State) :
    (∃ e, hostExec s = .next (s.stop e))
    ∨ (∃ i u, hostExec s = .next { u with pc := u.pc + 1 } ∧ Completes i s u) := by
  cases hd : decode s.fetch with
  | error r => exact .inl ⟨.refuse r, hostExec_of_decode_error hd⟩
  | ok i =>
    rw [hostExec_of_decode_ok hd]
    rcases exec_outcomes i s with hstop | ⟨u, hu, hc⟩
    · exact .inl hstop
    · exact .inr ⟨i, u, hu, hc⟩

/-- Settles O8: a HOST step stops or completes; with a mark set HOST has no further step, so only turns that leave `pc`,
the temporaries and the marks alone remain. -/
theorem hostStepHasThreeOutcomes : Obligations.HostStepHasThreeOutcomes := by
  refine ⟨fun s => ?_, fun s hmark => ⟨State.hostDone_of_marked hmark, State.not_normalEnd_of_marked hmark⟩,
    fun s t h => ⟨fun hmark => ?_, fun href => ?_, fun hfault => ?_⟩⟩
  · rcases hostExec_outcomes s with ⟨e, he⟩ | ⟨i, u, hu, hc⟩
    · exact ⟨s.stop e, he, .inr (s.stop_eq_refused_or_faulted e)⟩
    · obtain ⟨hpc, hmarks⟩ := hc.keeps_pc_marks
      exact ⟨_, hu, .inl ⟨congrArg (· + 1) hpc, hmarks⟩⟩
  · obtain ⟨hpc, htemps, _⟩ := step_of_marked h hmark
    exact ⟨hpc, htemps⟩
  · obtain ⟨_, _, hr, _⟩ := step_of_marked h (.inl href)
    exact hr
  · obtain ⟨_, _, _, hf⟩ := step_of_marked h (.inr hfault)
    exact hf

end Sys2Proof.Machine

/-! ## The order in which temporaries are read (60_exceptions.md R233) -/

namespace Sys2Proof.Machine

/-- The computation `m` begins by reading the temporaries `ks` of `s`, in order, whatever values it finds. -/
def State.ReadsInOrder (s : State) : List Nat → Except Stop State → Prop
  | [], _ => True
  | k :: ks, m => ∃ f, m = (s.readTemp k >>= f) ∧ ∀ v, s.ReadsInOrder ks (f v)

/-- A computation that reads `ks` in order stops at the first of them that is unwritten. -/
theorem State.ReadsInOrder.stops_at_first_unwritten {s : State} {j : Nat} {ks : List Nat} {m : Except Stop State}
    (hm : s.ReadsInOrder ks m) (hj : ks.find? (fun k => s.temp k = none) = some j) :
    m = .error (.fault (.unwrittenTemp j)) := by
  induction ks generalizing m with
  | nil => cases hj
  | cons k ks ih =>
    obtain ⟨f, rfl, hf⟩ := hm
    rcases s.readTemp_cases k with ⟨v, hv, hread⟩ | ⟨hnone, hread⟩
    · rw [hread]
      exact ih (hf v) (by simpa [hv] using hj)
    · rw [List.find?_cons_of_pos (by simpa using hnone)] at hj
      rw [hread, Option.some.inj hj]; rfl

/-- After its checks an operation first reads its sources, in the order `sources` lists them. -/
theorem exec_reads_sources_in_order (i : Instr) (s : State) :
    ∃ m, exec i s = complete s (passChecks i s >>= fun _ => m) ∧ s.ReadsInOrder (sources i) m := by
  cases i with
  | rd td reg => exact ⟨_, rfl, trivial⟩
  | li td imm => exact ⟨.ok (s.setTemp td.val imm), rfl, trivial⟩
  | wr reg ts | fext td ts lsb wm1 | firUnpack td ts | encStd td ts | encExt td ts =>
    exact ⟨_, rfl, _, rfl, fun _ => trivial⟩
  | fins td ts lsb wm1 | decStd td ts => exact ⟨_, rfl, _, rfl, fun _ => ⟨_, rfl, fun _ => trivial⟩⟩
  | firPack td ts | decExt td ts =>
    exact ⟨_, rfl, _, rfl, fun _ => ⟨_, rfl, fun _ => ⟨_, rfl, fun _ => ⟨_, rfl, fun _ => trivial⟩⟩⟩⟩

/-- Settles O14: the checks pass, so the operation is its reads in order, and those stop at the first unwritten source. -/
theorem firstUnwrittenSourceFaults : Obligations.FirstUnwrittenSourceFaults := by
  intro i s j hcheck hfirst
  obtain ⟨m, hexec, hreads⟩ := exec_reads_sources_in_order i s
  rw [hexec, passChecks_none hcheck, hreads.stops_at_first_unwritten hfirst]
  rfl

end Sys2Proof.Machine

/-! ## Decoding and encoding are inverse (30_encoding.md R101 to R106, R115) -/

namespace Sys2Proof

theorem opTable_unique_match {r r' : OpRow} (hr : r ∈ opTable) (hr' : r' ∈ opTable) {x : OpWord}
    (hx : x &&& r.mask = r.pattern) (hx' : x &&& r'.mask = r'.pattern) : r = r' :=
  opTable_number_inj r hr r' hr'
    (((opTable_match_iff hr x).mp hx).1.trans ((opTable_match_iff hr' x).mp hx').1.symm)

/-- Only one row can match, so decoding answers with the row that does. -/
theorem decode_of_match {r : OpRow} (hr : r ∈ opTable) {x : OpWord} (hx : x &&& r.mask = r.pattern) :
    decode x = .ok (r.op.assemble x) := by
  cases hfind : opTable.find? (·.spells x) with
  | none =>
    have hno : r.spells x = false := by simpa using List.find?_eq_none.mp hfind r hr
    exact absurd hx (of_decide_eq_false hno)
  | some r' =>
    have hspells : r'.spells x = true := List.find?_some (p := fun q : OpRow => q.spells x) hfind
    rw [opTable_unique_match hr (List.mem_of_find?_eq_some hfind) hx (of_decide_eq_true hspells)]
    simp only [decode, hfind]

/-- Decoding succeeds only through a row that the word matches. -/
theorem exists_match_of_decode_ok {x : OpWord} {i : Instr} (h : decode x = .ok i) :
    ∃ r ∈ opTable, x &&& r.mask = r.pattern ∧ i = r.op.assemble x := by
  by_cases hrow : ∃ r ∈ opTable, x &&& r.mask = r.pattern
  · obtain ⟨r, hr, hx⟩ := hrow
    rw [decode_of_match hr hx] at h
    exact ⟨r, hr, hx, (Except.ok.inj h).symm⟩
  · rw [decode_of_no_row_matches fun r hr hx => hrow ⟨r, hr, hx⟩] at h
    cases h

/-- The word of an operation matches the operation's own row. -/
theorem encode_matches_row (i : Instr) : ∃ r ∈ opTable, r.op = i.op ∧ encode i &&& r.mask = r.pattern := by
  cases i with
  | rd td reg => exact Laws.RowMatch.rd td reg
  | wr reg ts => exact Laws.RowMatch.wr reg ts
  | fext td ts lsb wm1 => exact Laws.RowMatch.fext td ts lsb wm1
  | fins td ts lsb wm1 => exact Laws.RowMatch.fins td ts lsb wm1
  | firPack td ts => exact Laws.RowMatch.firPack td ts
  | firUnpack td ts => exact Laws.RowMatch.firUnpack td ts
  | encStd td ts => exact Laws.RowMatch.encStd td ts
  | decStd td ts => exact Laws.RowMatch.decStd td ts
  | encExt td ts => exact Laws.RowMatch.encExt td ts
  | decExt td ts => exact Laws.RowMatch.decExt td ts
  | li td imm => exact Laws.RowMatch.li td imm

/-- Operand assembly reads back the fields that `encode` packed. -/
theorem assemble_encode (i : Instr) : i.op.assemble (encode i) = i := by
  cases i <;>
    simp only [Instr.op, Op.assemble, encode, tdField_packWord, tsField_packWord, regField_packWord,
      lsbField_packWord, wm1Field_packWord, immField_packWord, BitVec.toFin_ofFin]

/-- A word with the row's number and its must-be-zero fields zero is packed from the row's operands alone. -/
theorem encode_assemble {r : OpRow} (hr : r ∈ opTable) {x : OpWord} (hop : r.number = opField x)
    (hz : r.op.format.zeroFieldsClear x = true) : encode (r.op.assemble x) = x := by
  conv => rhs; rw [← packWord_fields x, ← hop]
  simp only [opTable, List.mem_cons, List.not_mem_nil, or_false] at hr
  rcases hr with rfl | rfl | rfl | rfl | rfl | rfl | rfl | rfl | rfl | rfl | rfl <;>
    simp_all [Op.format, Format.zeroFieldsClear, Op.assemble, encode]

/-- Settles O1: the word matches its operation's row, and assembly through that row gives the operands back. -/
theorem decodeOfEncodeIsTheInstruction : Obligations.DecodeOfEncodeIsTheInstruction := by
  intro i
  obtain ⟨r, hr, hop, hx⟩ := encode_matches_row i
  rw [decode_of_match hr hx, hop, assemble_encode]

/-- Settles O2: decoding went through a row, whose match fixes every field that assembly does not read. -/
theorem encodeOfDecodeIsTheWord : Obligations.EncodeOfDecodeIsTheWord := by
  intro x i h
  obtain ⟨r, hr, hx, rfl⟩ := exists_match_of_decode_ok h
  obtain ⟨hop, hz⟩ := (opTable_match_iff hr x).mp hx
  exact encode_assemble hr hop hz

/-- Settles O3: a match is a condition on `op` and the must-be-zero fields, and no two rows share an `op`. -/
theorem rowsTestOpAndZeroFieldsAndAreDisjoint : Obligations.RowsTestOpAndZeroFieldsAndAreDisjoint := by
  refine fun r hr x => ⟨?_, fun r' hr' hx hx' => opTable_unique_match hr hr' hx hx'⟩
  rw [opTable_match_iff hr, eq_comm (a := r.number)]

/-- Settles O5: the words are literals, so the decoder is evaluated on them. -/
theorem workedEncodingsReadAsWritten : Obligations.WorkedEncodingsReadAsWritten := by
  unfold Obligations.WorkedEncodingsReadAsWritten
  decide

end Sys2Proof

/-! ## The assembler line of an operation (30_encoding.md R110) -/

namespace Sys2Proof.Machine

/-- Every operation has a row, and the row gives its mnemonic (checked on the table's literals). -/
theorem mnemonicOf_mem_opTable (o : Op) : ∃ r ∈ opTable, r.op = o ∧ r.mnemonic = mnemonicOf o := by
  cases o <;> decide

/-- A field's width, written as `wm1 + 1`, fits its operand and gives `wm1` back. -/
theorem asmField_val (mk : BitPos → BitPos → Instr) (lsb wm1 : BitPos) :
    asmField mk lsb.val (wm1.val + 1) = some (mk lsb wm1) := by
  simp [asmField]

theorem asmReg_val (mk : RegIdx → Instr) (reg : RegIdx) : asmReg mk reg.val = some (mk reg) := by
  simp [asmReg]

theorem assembleLine_asmOperands (i : Instr) : assembleLine i.op (asmOperands i) = some i := by
  cases i with
  | rd td reg => exact asmReg_val (.rd td) reg
  | wr reg ts => exact asmReg_val (fun reg => .wr reg ts) reg
  | fext td ts lsb wm1 => exact asmField_val (.fext td ts) lsb wm1
  | fins td ts lsb wm1 => exact asmField_val (.fins td ts) lsb wm1
  | li td imm => simp [Instr.op, asmOperands, assembleLine, imm.isLt]
  | _ => rfl

/-- Settles O6: each operand fits the place the line gives it, and every operation has its row. -/
theorem assemblerLineNamesTheOperation : Obligations.AssemblerLineNamesTheOperation :=
  fun i => ⟨assembleLine_asmOperands i, mnemonicOf_mem_opTable i.op⟩

end Sys2Proof.Machine

/-! ## What a step does to the window (10_state.md R24, R47, R48; 20_memory.md R77) -/

namespace Sys2Proof.Machine

theorem isMailbox_iff (cfg : Config) (a : Nat) :
    isMailbox cfg a = true ↔ cfg.mbxBase ≤ a ∧ a < cfg.mbxBase + cfg.mbxWords := by
  simp [isMailbox]

theorem wordClass_of_isMailbox {cfg : Config} {a : Nat} (h : isMailbox cfg a = true) : cfg.wordClass a = .storage := by
  obtain ⟨hlo, hhi⟩ := (isMailbox_iff cfg a).mp h
  have hclass := cfg.wordClass_mailbox (a - cfg.mbxBase) (by omega)
  rwa [Nat.add_sub_cancel' hlo] at hclass

/-- The mode register lies before the mailbox region in every layout. -/
theorem isMailbox_zero (cfg : Config) : isMailbox cfg 0 = false := by
  simp [isMailbox, Config.mbxBase]

/-- `t` holds in each word what `s` holds, or bits of that word's storage. -/
structure State.StoresOnly (s t : State) : Prop where
  wf : t.regs.wf
  cfg_eq : t.cfg = s.cfg
  word : ∀ a, t.reg a = s.reg a ∨ (s.cfg.wordClass a = .storage ∧ ∃ x, t.reg a = x &&& s.cfg.implMask a)

theorem State.StoresOnly.of_regs_eq {s t : State} (hwf : s.regs.wf) (hregs : t.regs = s.regs) (hcfg : t.cfg = s.cfg) :
    s.StoresOnly t := ⟨hregs ▸ hwf, hcfg, fun a => .inl (by simp only [State.reg, hregs])⟩

/-- A write of storage word `a` that may also have redrawn the mailbox region (`P`: it did). -/
theorem State.StoresOnly.of_write {s t : State} {a : Nat} {v : Word} {P : Prop} [Decidable P]
    (ha : s.cfg.wordClass a = .storage) (hwf : t.regs.wf) (hcfg : t.cfg = s.cfg)
    (hword : ∀ b, t.reg b =
      if P ∧ s.cfg.mbxBase ≤ b ∧ b < s.cfg.mbxBase + s.cfg.mbxWords
      then Config.draw (s.draws + (b - s.cfg.mbxBase)) &&& s.cfg.implMask b
      else if a = b then v &&& s.cfg.implMask a else s.reg b) : s.StoresOnly t := by
  refine ⟨hwf, hcfg, fun b => ?_⟩
  rw [hword]
  by_cases hredrawn : P ∧ s.cfg.mbxBase ≤ b ∧ b < s.cfg.mbxBase + s.cfg.mbxWords
  · rw [if_pos hredrawn]
    exact .inr ⟨wordClass_of_isMailbox ((isMailbox_iff _ _).mpr hredrawn.2), _, rfl⟩
  · rw [if_neg hredrawn]
    by_cases hab : a = b
    · subst hab; exact .inr ⟨ha, v, if_pos rfl⟩
    · exact .inl (if_neg hab)

/-- Word `a` after `CoreMode`: its own draw if it is a mailbox word, else what it held. -/
theorem State.reg_coreMode {s : State} (hwf : s.regs.wf) (m : CMode) (a : Nat) :
    (s.coreMode m).reg a =
      if isMailbox s.cfg a then Config.draw (s.draws + (a - s.cfg.mbxBase)) &&& s.cfg.implMask a else s.reg a := by
  simp only [isMailbox_iff]
  exact State.reg_switchMode (s := { s with cmodeIn := m }) hwf m a

theorem State.coreMode_storesOnly {s : State} (hwf : s.regs.wf) (m : CMode) (hcfg : (s.coreMode m).cfg = s.cfg) :
    s.StoresOnly (s.coreMode m) := by
  refine ⟨State.wf_switchMode (s := { s with cmodeIn := m }) hwf m, hcfg, fun a => ?_⟩
  rw [State.reg_coreMode hwf]
  by_cases ha : isMailbox s.cfg a = true
  · rw [if_pos ha]
    exact .inr ⟨wordClass_of_isMailbox ha, _, rfl⟩
  · exact .inl (if_neg ha)

theorem State.coreTurn_storesOnly {s : State} (hwf : s.regs.wf) (c : CoreStep) : s.StoresOnly (s.coreTurn c) := by
  have hcfg := s.coreTurn_cfg c
  rcases s.coreTurn_cases c with ⟨_, hpass⟩ | ⟨a, v, _, howns, hwrite⟩ | ⟨m, _, _, _, hmode⟩
  · exact .of_regs_eq hwf (by rw [hpass]) hcfg
  · rw [hwrite] at hcfg ⊢
    exact .of_write (Config.owns_storage howns) (State.wf_coreWrite hwf a v) hcfg (State.reg_coreWrite hwf a v)
  · rw [hmode] at hcfg ⊢
    exact State.coreMode_storesOnly hwf m hcfg

/-- Of the operations only a completed WR of a storage word reaches the window. -/
theorem Completes.storesOnly {i : Instr} {s u : State} (hwf : s.regs.wf) (h : Completes i s u) : s.StoresOnly u := by
  rcases h with ⟨_, hu, _⟩ | ⟨_, _, _, _, _, rfl, _⟩ | ⟨reg, _, v, _, _, ⟨_, rfl⟩ | ⟨hclass, rfl⟩⟩
  · exact .of_regs_eq hwf (by rw [hu]) (by rw [hu])
  · exact .of_regs_eq hwf (by simp) (by simp)
  · exact .of_regs_eq hwf (by simp) (by simp)
  · exact .of_write hclass (State.wf_writeStorage hwf _ v) (by simp) (State.reg_writeStorage hwf _ v)

theorem exec_storesOnly {i : Instr} {s t : State} (hwf : s.regs.wf) (h : exec i s = .next t) : s.StoresOnly t := by
  rcases exec_cases h with ⟨e, rfl⟩ | ⟨u, rfl, hu⟩
  · exact .of_regs_eq hwf (by simp) (by simp)
  · obtain ⟨huwf, hcfg, hword⟩ := hu.storesOnly hwf
    exact ⟨huwf, hcfg, hword⟩

theorem step_storesOnly {s t : State} (hwf : s.regs.wf) (h : step s = .next t) : s.StoresOnly t := by
  have hpop : s.popTurn.StoresOnly t := by
    rcases step_cases h with ⟨c, _, rfl⟩ | ⟨_, _, rfl⟩ | ⟨_, _, ⟨r, _, rfl⟩ | ⟨i, _, hexec⟩⟩
    · exact State.coreTurn_storesOnly (s := s.popTurn) hwf c
    · exact .of_regs_eq hwf rfl rfl
    · exact .of_regs_eq (s := s.popTurn) hwf (by simp) (by simp)
    · exact exec_storesOnly (s := s.popTurn) hwf hexec
  exact ⟨hpop.wf, hpop.cfg_eq, hpop.word⟩

/-- Bits of a storage word's mask are storage. -/
theorem and_implMask_and_not_storageMask {cfg : Config} {a : Nat} (h : cfg.wordClass a = .storage) (x : Word) :
    (x &&& cfg.implMask a) &&& ~~~ (cfg.storageMask a) = 0 := by
  rw [Config.storageMask_of_storage h, BitVec.and_assoc, BitVec.and_not_self]
  exact BitVec.and_zero

theorem State.StoresOnly.keeps_inv {s t : State} (h : s.StoresOnly t) (hs : s.Inv) : t.Inv := by
  refine ⟨h.wf, fun a => ?_⟩
  rw [h.cfg_eq]
  rcases h.word a with hsame | ⟨hclass, x, hx⟩
  · rw [hsame]; exact hs.2 a
  · rw [hx]; exact and_implMask_and_not_storageMask hclass x

/-- Settles O42: a step leaves each word as it was or puts bits of its storage into it. -/
theorem everyStepKeepsTheInvariant : Obligations.EveryStepKeepsTheInvariant :=
  fun _ _ hs h => (step_storesOnly hs.1 h).keeps_inv hs

end Sys2Proof.Machine

/-! ## What a run adds to the history (10_state.md R50) -/

namespace Sys2Proof.Machine

@[simp] theorem State.writeStorage_schedule (s : State) (a : Nat) (v : Word) :
    (s.writeStorage a v).schedule = s.schedule := by rw [writeStorage_eq]

@[simp] theorem State.coreTurn_schedule (s : State) (c : CoreStep) : (s.coreTurn c).schedule = s.schedule := by
  rw [coreTurn_eq]

@[simp] theorem State.switchMode_hist (s : State) (m : CMode) : (s.switchMode m).hist = s.hist ++ [Event.mode m] := by
  rw [switchMode_eq]

/-- A WR of a storage word records `WR`, and after it at most a change of mode. -/
theorem State.writeStorage_hist (s : State) (a : Nat) (v : Word) :
    ∃ rest, (s.writeStorage a v).hist = s.hist ++ Event.wr a v :: rest ∧ ∀ e ∈ rest, e.busOp = none := by
  by_cases hm : s.modeChanges a v
  · exact ⟨[.mode (modeOfBit (v.getLsbD 0))], by simp [State.writeStorage_switch hm], by simp [Event.busOp]⟩
  · exact ⟨[], by simp [State.writeStorage_plain hm], by simp⟩

/-- CORE records no bus event. -/
theorem State.coreTurn_hist (s : State) (c : CoreStep) :
    ∃ l, (s.coreTurn c).hist = s.hist ++ l ∧ ∀ e ∈ l, e.busOp = none := by
  rcases s.coreTurn_cases c with ⟨_, h⟩ | ⟨a, v, _, _, h⟩ | ⟨m, _, _, _, h⟩ <;> rw [h]
  · exact ⟨[], by simp, by simp⟩
  · by_cases hm : s.modeChanges a (v &&& s.cfg.implMask a)
    · exact ⟨_, by rw [State.coreWrite_switch hm, State.switchMode_hist, State.emit_hist, List.append_assoc]; rfl,
        by simp [Event.busOp]⟩
    · exact ⟨_, by rw [State.coreWrite_plain hm, State.emit_hist]; rfl, by simp [Event.busOp]⟩
  · exact ⟨_, by rw [State.coreMode, State.switchMode_hist], by simp [Event.busOp]⟩

theorem busOpOf_of_busWord_none {i : Instr} (h : busWord i = none) (cfg : Config) : busOpOf cfg i = none := by
  cases i with
  | rd td reg => cases h
  | wr reg ts => cases h
  | _ => rfl

/-- A completed operation records exactly its own bus operation. -/
theorem Completes.hist {i : Instr} {s u : State} (h : Completes i s u) :
    ∃ l, u.hist = s.hist ++ l ∧ l.filterMap Event.busOp = (busOpOf s.cfg i).toList := by
  rcases h with ⟨hi, hu, _⟩ | ⟨td, reg, v, rfl, _, rfl, _⟩ | ⟨reg, ts, v, rfl, _, ⟨hclass, rfl⟩ | ⟨hclass, rfl⟩⟩
  · exact ⟨[], by rw [hu]; simp, by simp [busOpOf_of_busWord_none hi]⟩
  · exact ⟨[.rd reg.val v], by simp, by simp [Event.busOp, busOpOf]⟩
  · exact ⟨[.cmd v], by simp, by simp [Event.busOp, busOpOf, Config.wordClass_strobe hclass]⟩
  · obtain ⟨rest, hhist, hrest⟩ := s.writeStorage_hist reg.val v
    exact ⟨_, hhist, by simp [Event.busOp, busOpOf, hclass, List.filterMap_eq_nil_iff.mpr hrest]⟩

/-- The script words from position `p` up to but not including `q`. -/
def scriptSlice (script : List OpWord) (p q : Nat) : List OpWord := (script.take q).drop p

theorem scriptSlice_self (script : List OpWord) (p : Nat) : scriptSlice script p p = [] := by
  simp [scriptSlice]

theorem scriptSlice_succ {script : List OpWord} {p : Nat} (h : p < script.length) :
    scriptSlice script p (p + 1) = [script[p]] := by
  simp [scriptSlice, List.drop_take, List.take_one_drop_eq_of_lt_length h]

theorem scriptSlice_append (script : List OpWord) {p q r : Nat} (hpq : p ≤ q) (hqr : q ≤ r) :
    scriptSlice script p q ++ scriptSlice script q r = scriptSlice script p r := by
  simp only [scriptSlice, List.drop_take]
  rw [show r - p = (q - p) + (r - q) by omega, List.take_add, List.drop_drop, Nat.add_sub_cancel' hpq]

/-- What `t`, reached from `s`, owes to the script: `pc` has not gone back, and the history has grown by events whose bus
operations are those of the script words passed. -/
structure FollowsScript (s t : State) : Prop where
  pc_le : s.pc ≤ t.pc
  script_eq : t.script = s.script
  cfg_eq : t.cfg = s.cfg
  hist_grows : ∃ l, t.hist = s.hist ++ l
    ∧ l.filterMap Event.busOp = (scriptSlice s.script s.pc t.pc).filterMap (wordBusOp s.cfg)

theorem FollowsScript.refl (s : State) : FollowsScript s s :=
  ⟨Nat.le_refl _, rfl, rfl, [], by simp, by simp [scriptSlice_self]⟩

theorem FollowsScript.trans {s u t : State} (hsu : FollowsScript s u) (hut : FollowsScript u t) : FollowsScript s t := by
  obtain ⟨hpc, hscript, hcfg, l, hl, hops⟩ := hsu
  obtain ⟨hpc', hscript', hcfg', l', hl', hops'⟩ := hut
  refine ⟨hpc.trans hpc', hscript'.trans hscript, hcfg'.trans hcfg, l ++ l', by rw [hl', hl, List.append_assoc], ?_⟩
  rw [List.filterMap_append, hops, hops', hscript, hcfg, ← List.filterMap_append, scriptSlice_append _ hpc hpc']

/-- A step that keeps `pc` and records no bus event. -/
theorem FollowsScript.of_no_bus {s t : State} (hpc : t.pc = s.pc) (hscript : t.script = s.script) (hcfg : t.cfg = s.cfg)
    {l : List Event} (hl : t.hist = s.hist ++ l) (hops : ∀ e ∈ l, e.busOp = none) : FollowsScript s t :=
  ⟨hpc.ge, hscript, hcfg, l, hl, by
    rw [hpc, scriptSlice_self, List.filterMap_nil, List.filterMap_eq_nil_iff.mpr hops]⟩

theorem State.fetch_eq_getElem {s : State} (h : s.pc < s.script.length) : s.fetch = s.script[s.pc] := by
  simp [fetch, h]

/-- An operation fetched from the script either stops and records nothing, or completes and records its bus operation. -/
theorem exec_followsScript {i : Instr} {s t : State} (hlt : s.pc < s.script.length) (hdecode : decode s.fetch = .ok i)
    (h : exec i s = .next t) : FollowsScript s t := by
  rcases exec_cases h with ⟨e, rfl⟩ | ⟨u, rfl, hu⟩
  · exact .of_no_bus (l := []) (by simp) (by simp) (by simp) (by simp) (by simp)
  · obtain ⟨hpc, _⟩ := hu.keeps_pc_marks
    obtain ⟨hscript, hcfg⟩ := hu.keeps_script_cfg
    obtain ⟨l, hl, hops⟩ := hu.hist
    rw [State.fetch_eq_getElem hlt] at hdecode
    refine ⟨by simp [hpc], hscript, hcfg, l, hl, ?_⟩
    simp only [hops, hpc, scriptSlice_succ hlt, wordBusOp, hdecode, List.filterMap_cons, List.filterMap_nil,
      Except.toOption, Option.bind_some]
    cases busOpOf s.cfg i <;> rfl

theorem step_followsScript {s t : State} (h : step s = .next t) : FollowsScript s t := by
  have hpop : FollowsScript s.popTurn t := by
    rcases step_cases h with ⟨c, _, rfl⟩ | ⟨_, _, rfl⟩ | ⟨hdone, _, ⟨r, _, rfl⟩ | ⟨i, hdecode, hexec⟩⟩
    · obtain ⟨l, hl, hops⟩ := s.popTurn.coreTurn_hist c
      exact .of_no_bus (by simp) (by simp) (by simp) hl hops
    · exact .refl _
    · exact .of_no_bus (l := []) (by simp) (by simp) (by simp) (by simp) (by simp)
    · obtain ⟨_, _, hlt⟩ := s.hostDone_eq_none.mp hdone
      exact exec_followsScript (s := s.popTurn) hlt hdecode hexec
  exact ⟨hpop.pc_le, hpop.script_eq, hpop.cfg_eq, hpop.hist_grows⟩

theorem run_followsScript {n : Nat} {s t : State} (h : Sys2Proof.core.run n s = .next t) : FollowsScript s t := by
  induction n generalizing s with
  | zero => rw [run_zero h]; exact .refl s
  | succ n ih =>
    obtain ⟨u, hstep, hrun⟩ := run_succ h
    exact (step_followsScript hstep).trans (ih hrun)

/-- Settles O46: each step adds the bus operation of the script word it passes, and slices of the script join. -/
theorem busEventsFollowTheScript : Obligations.BusEventsFollowTheScript := by
  intro n s t h
  obtain ⟨l, hl, hops⟩ := (run_followsScript h).hist_grows
  rw [hl, List.filterMap_append, hops]
  rfl

end Sys2Proof.Machine

/-! ## What a word holds while nothing writes it (20_memory.md R83, 40_register_access.md R140) -/

namespace Sys2Proof.Machine

theorem Completes.keeps_schedule {i : Instr} {s u : State} (h : Completes i s u) : u.schedule = s.schedule := by
  rcases h with ⟨_, hu, _⟩ | ⟨_, _, _, _, _, rfl, _⟩ | ⟨_, _, _, _, _, ⟨_, rfl⟩ | ⟨_, rfl⟩⟩
  · rw [hu]
  all_goals simp

/-- A step takes one turn off the schedule. -/
theorem step_schedule {s t : State} (h : step s = .next t) : t.schedule = s.schedule.tail := by
  rcases step_cases h with ⟨c, _, rfl⟩ | ⟨_, _, rfl⟩ | ⟨_, _, ⟨r, _, rfl⟩ | ⟨i, _, hexec⟩⟩
  · simp
  · simp
  · simp
  · rcases exec_cases hexec with ⟨e, rfl⟩ | ⟨u, rfl, hu⟩
    · simp
    · exact hu.keeps_schedule

/-- A quiet run begins with a turn that is not CORE's, and what follows it is quiet. -/
theorem State.coreQuiet_succ {s u : State} {n : Nat} (hstep : step s = .next u) (h : s.coreQuiet (n + 1)) :
    (∀ c, s.schedule.head? ≠ some (.core c)) ∧ u.coreQuiet n := by
  rw [State.coreQuiet, step_schedule hstep]
  unfold State.coreQuiet at h
  cases hsched : s.schedule with
  | nil => simp
  | cons turn rest =>
    rw [hsched, List.take_succ_cons] at h
    refine ⟨fun c hc => h c ?_, fun c hc => h c (List.mem_cons_of_mem _ hc)⟩
    rw [Option.some.inj hc]; exact List.mem_cons_self

/-- Without a change of mode before a state on the way, and none after it. -/
theorem noModeChange_split {s u t : State} (hsu : FollowsScript s u) (hut : FollowsScript u t) (h : noModeChange s t) :
    noModeChange s u ∧ noModeChange u t := by
  obtain ⟨l, hl, _⟩ := hsu.hist_grows
  obtain ⟨l', hl', _⟩ := hut.hist_grows
  have hall : ∀ m, Event.mode m ∉ l ++ l' := by simpa [noModeChange, hl', hl, List.append_assoc] using h
  refine ⟨fun m hm => hall m ?_, fun m hm => hall m ?_⟩
  · rw [hl, List.drop_left] at hm; exact List.mem_append_left _ hm
  · rw [hl', List.drop_left] at hm; exact List.mem_append_right _ hm

/-- A completed operation other than a WR of the word leaves it, unless it changed the mode and the word is redrawn. -/
theorem Completes.keeps_reg {i : Instr} {s u : State} {a : Nat} (hwf : s.regs.wf) (h : Completes i s u)
    (hother : ∀ reg ts, i = .wr reg ts → reg.val ≠ a) (hmode : isMailbox s.cfg a = true → noModeChange s u) :
    u.reg a = s.reg a := by
  rcases h with ⟨_, hu, _⟩ | ⟨_, _, _, _, _, rfl, _⟩ | ⟨reg, ts, v, rfl, _, ⟨_, rfl⟩ | ⟨_, rfl⟩⟩
  · rw [hu]; rfl
  · simp
  · simp
  · have hkept : ¬ (s.modeChanges reg.val v ∧ s.cfg.mbxBase ≤ a ∧ a < s.cfg.mbxBase + s.cfg.mbxWords) := by
      rintro ⟨hm, hbox⟩
      apply hmode ((isMailbox_iff _ _).mpr hbox) (modeOfBit (v.getLsbD 0))
      simp [State.writeStorage_switch hm]
    rw [State.reg_writeStorage hwf, if_neg hkept, if_neg (hother reg ts rfl)]

theorem writesWord_of_decode_wr {x : OpWord} {reg : RegIdx} {ts : Temp} (h : decode x = .ok (.wr reg ts)) (a : Nat) :
    writesWord a x = decide (reg.val = a) := by
  simp only [writesWord, h]

theorem step_keeps_reg {s t : State} {a : Nat} (hwf : s.regs.wf) (h : step s = .next t)
    (hquiet : ∀ c, s.schedule.head? ≠ some (.core c))
    (hscript : ∀ x, s.pc < t.pc → s.script[s.pc]? = some x → writesWord a x = false)
    (hmode : isMailbox s.cfg a = true → noModeChange s t) : t.reg a = s.reg a := by
  rcases step_cases h with ⟨c, hcore, _⟩ | ⟨_, _, rfl⟩ | ⟨hdone, _, ⟨r, _, rfl⟩ | ⟨i, hdecode, hexec⟩⟩
  · exact absurd hcore (hquiet c)
  · rfl
  · rfl
  · rcases exec_cases hexec with ⟨e, rfl⟩ | ⟨u, rfl, hu⟩
    · simp
    · change u.reg a = s.popTurn.reg a
      refine hu.keeps_reg hwf ?_ hmode
      rintro reg ts rfl
      obtain ⟨_, _, hlt⟩ := s.hostDone_eq_none.mp hdone
      obtain ⟨hpc, _⟩ := hu.keeps_pc_marks
      rw [State.fetch_eq_getElem hlt] at hdecode
      have hno := hscript _ (by simp [hpc]) (List.getElem?_eq_getElem hlt)
      rw [writesWord_of_decode_wr hdecode] at hno
      exact of_decide_eq_false hno

/-- Settles O47, by induction on the number of steps: the premises of a run hold of its first step and of the rest. -/
theorem wordHoldsUntilAStepChangesIt : Obligations.WordHoldsUntilAStepChangesIt := by
  intro a n
  induction n with
  | zero => intro s t _ h _ _ _; rw [run_zero h]
  | succ n ih =>
    intro s t hwf h hquiet hscript hmode
    obtain ⟨u, hstep, hrun⟩ := run_succ h
    have hsu := step_followsScript hstep
    have hut := run_followsScript hrun
    obtain ⟨hfirst, hrest⟩ := State.coreQuiet_succ hstep hquiet
    have hsplit := fun hbox => noModeChange_split hsu hut (hmode hbox)
    calc t.reg a = u.reg a := by
          refine ih u t (step_storesOnly hwf hstep).wf hrun hrest (fun k x hk hkt hx => ?_) (fun hbox => ?_)
          · exact hscript k x (hsu.pc_le.trans hk) hkt (hsu.script_eq ▸ hx)
          · exact (hsplit (hsu.cfg_eq ▸ hbox)).2
      _ = s.reg a := by
          refine step_keeps_reg hwf hstep hfirst (fun x hlt hx => ?_) (fun hbox => (hsplit hbox).1)
          exact hscript s.pc x (Nat.le_refl _) (lt_of_lt_of_le hlt hut.pc_le) hx

/-- A storage word after a WR of it: a WR that changes the mode is one of word 0, which is not redrawn. -/
theorem State.reg_writeStorage_self {s : State} (hwf : s.regs.wf) (a : Nat) (v : Word) :
    (s.writeStorage a v).reg a = v &&& s.cfg.implMask a := by
  have hkept : ¬ (s.modeChanges a v ∧ s.cfg.mbxBase ≤ a ∧ a < s.cfg.mbxBase + s.cfg.mbxWords) := by
    rintro ⟨⟨_, rfl, _⟩, hbox⟩
    exact absurd ((isMailbox_iff _ _).mpr hbox) (by simp [isMailbox_zero])
  rw [State.reg_writeStorage hwf, if_neg hkept, if_pos rfl]

/-- What RD of a storage word gives of a state: the stored bits where they are implemented, the next draw elsewhere. -/
def State.readValue (s : State) (a : Nat) : Word :=
  (s.reg a &&& s.cfg.implMask a) ||| (s.nextDraw &&& ~~~ (s.cfg.implMask a))

theorem exec_rd_readValue {td : Temp} {reg : RegIdx} {s : State} (h : s.cfg.wordClass reg.val = .storage) :
    exec (.rd td reg) s =
      .next (((s.drawn).emit (.rd reg.val (s.readValue reg.val))).setTemp td.val (s.readValue reg.val)).advance :=
  exec_rd_storage h

/-- The draw does not reach the implemented bits. -/
theorem State.readValue_and_of_implemented (s : State) (a : Nat) {m : Word} (h : m &&& ~~~ (s.cfg.implMask a) = 0) :
    s.readValue a &&& m = s.reg a &&& m := by
  apply BitVec.eq_of_getLsbD_eq
  intro i hi
  have hbit := congrArg (·.getLsbD i) h
  simp only [BitVec.getLsbD_and, BitVec.getLsbD_not, hi, decide_true, Bool.true_and] at hbit
  simp only [readValue, BitVec.getLsbD_and, BitVec.getLsbD_or, BitVec.getLsbD_not, hi, decide_true, Bool.true_and]
  cases hm : m.getLsbD i
  · simp
  · simp_all

theorem State.readValue_and_implMask (s : State) (a : Nat) :
    s.readValue a &&& s.cfg.implMask a = s.reg a &&& s.cfg.implMask a :=
  s.readValue_and_of_implemented a (BitVec.and_not_self _)

/-- Settles O23: the word holds what WR stored over the quiet run, and RD gives the stored bits where they are
implemented. -/
theorem writtenWordReadsBackWhileCoreIsQuiet : Obligations.WrittenWordReadsBackWhileCoreIsQuiet := by
  intro a ts td v n s u t w hwf hclass hv hwr hrun hquiet hscript hmode hrd
  rw [exec_wr_storage hclass hv] at hwr
  obtain rfl := Host.Outcome.next.inj hwr
  have hcfg : t.cfg = s.cfg := (run_followsScript hrun).cfg_eq.trans (s.writeStorage_cfg _ _)
  have hheld : t.reg a.val = v &&& s.cfg.implMask a.val := by
    rw [wordHoldsUntilAStepChangesIt a.val n (s.writeStorage a.val v).advance t (State.wf_writeStorage hwf a.val v) hrun
      hquiet hscript (by simpa using hmode)]
    exact State.reg_writeStorage_self hwf a.val v
  rw [exec_rd_readValue (hcfg ▸ hclass)] at hrd
  obtain rfl := Host.Outcome.next.inj hrd
  refine ⟨t.readValue a.val, State.temp_setTemp_self _ _ _ td.isLt, ?_⟩
  rw [← hcfg, State.readValue_and_implMask, hheld, hcfg, BitVec.and_assoc, BitVec.and_self]

end Sys2Proof.Machine

/-! ## How a step of the machine ends (43_harness_and_macros.md R204, 60_exceptions.md R234) -/

namespace Sys2Proof.Machine

theorem State.popTurn_of_schedule_nil {s : State} (h : s.schedule = []) : s.popTurn = s := by
  cases s; simp_all [popTurn]

theorem State.popTurn_of_schedule_cons {s : State} {turn : Turn} {rest : List Turn} (h : s.schedule = turn :: rest) :
    s.popTurn = { s with schedule := rest } := by
  simp only [popTurn, h, List.tail_cons]

/-- On HOST's turn with a HOST step left, the step is the HOST step. -/
theorem step_of_host_turn {s : State} (hturn : s.schedule.head? = none ∨ s.schedule.head? = some .host)
    (hdone : s.hostDone = none) : step s = hostExec s.popTurn := by
  cases hsched : s.schedule with
  | nil => simp only [step, hsched, hdone, State.popTurn_of_schedule_nil hsched]
  | cons turn rest =>
    obtain rfl : turn = .host := by simpa [hsched] using hturn
    simp only [step, hsched, hdone, if_pos]

/-- Settles O7: with clean marks and a script word left HOST has a step, and it decodes that word. -/
theorem stepRunsTheDecodedInstruction : Obligations.StepRunsTheDecodedInstruction := by
  intro s x i hturn hr hf hx hdecode
  obtain ⟨hlt, hget⟩ := List.getElem?_eq_some_iff.mp hx
  have hfetch : s.popTurn.fetch = x := by rw [State.popTurn_fetch, State.fetch_eq_getElem hlt, hget]
  rw [step_of_host_turn hturn (s.hostDone_eq_none.mpr ⟨hr, hf, hlt⟩)]
  exact hostExec_of_decode_ok (hfetch ▸ hdecode)

/-- A HOST step always answers a next state. -/
theorem hostExec_eq_next (s : State) : ∃ t, hostExec s = .next t := by
  rcases hostExec_outcomes s with ⟨e, he⟩ | ⟨_, u, hu, _⟩
  · exact ⟨_, he⟩
  · exact ⟨_, hu⟩

/-- A step answers a next state, or no turn is scheduled and HOST has no further step, for the reason given. -/
theorem step_outcomes (s : State) :
    ((∃ t, step s = .next t) ∧ (s.schedule ≠ [] ∨ s.hostDone = none))
    ∨ (s.schedule = [] ∧ ∃ f, s.hostDone = some f ∧ step s = .fault f) := by
  cases hsched : s.schedule with
  | nil =>
    cases hdone : s.hostDone with
    | none =>
      obtain ⟨t, ht⟩ := hostExec_eq_next s
      exact .inl ⟨⟨t, by simp only [step, hsched, hdone, ht]⟩, .inr rfl⟩
    | some f => exact .inr ⟨rfl, f, rfl, by simp only [step, hsched, hdone]⟩
  | cons turn rest =>
    refine .inl ⟨?_, .inl (List.cons_ne_nil _ _)⟩
    cases turn with
    | core c => exact ⟨_, by simp only [step, hsched]; rfl⟩
    | host =>
      by_cases hdone : s.hostDone = none
      · obtain ⟨t, ht⟩ := hostExec_eq_next s.popTurn
        exact ⟨t, by simp only [step, hsched, if_pos hdone, ht]⟩
      · exact ⟨s.popTurn, by simp only [step, hsched, if_neg hdone]⟩

theorem State.hostDone_of_normalEnd {s : State} (h : s.normalEnd) : s.hostDone = some .runEnded := by
  obtain ⟨hpc, hclean⟩ := h
  obtain ⟨hr, hf⟩ : s.refused = none ∧ s.faulted = none := by simpa [State.clean] using hclean
  simp [hostDone, hr, hf, hpc]

/-- HOST has no further step: a mark is set or the script is used up. -/
theorem State.hostDone_ne_none (s : State) :
    s.hostDone ≠ none ↔ s.refused ≠ none ∨ s.faulted ≠ none ∨ s.script.length ≤ s.pc := by
  rw [Ne, s.hostDone_eq_none, not_and_or, not_and_or, Nat.not_lt]

/-- Settles O9: a step answers a next state unless nothing is scheduled and HOST is done, whose reason is then the fault. -/
theorem machineStopsOnlyWhenHostIsDone : Obligations.MachineStopsOnlyWhenHostIsDone := by
  intro s
  rw [← s.hostDone_ne_none]
  rcases step_outcomes s with ⟨⟨t, ht⟩, hwhy⟩ | ⟨hsched, f, hdone, hf⟩
  · refine ⟨by simp [ht], ⟨by simp [ht], fun ⟨hsched, hdone⟩ => ?_⟩, fun hsched hend => ?_⟩
    · exact absurd (hwhy.resolve_left (· hsched)) hdone
    · rw [State.hostDone_of_normalEnd hend] at hwhy
      exact absurd hsched (hwhy.resolve_right (by simp))
  · refine ⟨by simp [hf], ⟨fun _ => ⟨hsched, by simp [hdone]⟩, fun _ => ⟨f, hf⟩⟩, fun _ hend => ?_⟩
    rw [hf, Option.some.inj (hdone.symm.trans (State.hostDone_of_normalEnd hend))]

end Sys2Proof.Machine

/-! ## The checks, and completion under them (30_encoding.md R105, 60_exceptions.md R231 to R234) -/

namespace Sys2Proof.Machine

theorem checkReg_eq_outOfWindow_iff (cfg : Config) (a : Nat) :
    checkReg cfg a = some (.outOfWindow a) ↔ cfg.nwords ≤ a := by
  rw [← cfg.wordClass_outside]
  cases h : cfg.wordClass a <;> simp [checkReg, h]

theorem checkReg_eq_reservedSlot_iff (cfg : Config) (a : Nat) :
    checkReg cfg a = some (.reservedSlot a) ↔ cfg.wordClass a = .reservedSlot := by
  cases h : cfg.wordClass a <;> simp [checkReg, h]

theorem checkSpan_of_past_word {lsb wm1 : BitPos} (h : 32 < lsb.val + (wm1.val + 1)) :
    checkSpan lsb wm1 = some (.fieldSpan lsb.val (wm1.val + 1)) := if_neg (by omega)

theorem checkRun_four (i : Temp) : checkRun i 4 = if i.val ≤ 12 then none else some .tempRun :=
  if_congr (by omega) rfl rfl

theorem checkRun_two (i : Temp) : checkRun i 2 = if i.val ≤ 14 then none else some .tempRun :=
  if_congr (by omega) rfl rfl

/-- Settles O12: each operation's check is one of the three shared checks, or none. -/
theorem checksRefuseWithTheirReasons : Obligations.ChecksRefuseWithTheirReasons := by
  refine fun cfg => ⟨fun td ts reg => ⟨rfl, ?_, ?_, ?_⟩, fun td ts lsb wm1 => ⟨rfl, ?_, ?_⟩,
    fun td ts => ⟨?_, ?_, ?_, ?_, ?_, ?_⟩, fun td imm => rfl⟩
  · exact checkReg_eq_outOfWindow_iff cfg reg.val
  · exact checkReg_eq_reservedSlot_iff cfg reg.val
  · exact checkReg_none
  · exact checkSpan_iff lsb wm1
  · exact checkSpan_of_past_word
  · exact checkRun_four ts
  · exact checkRun_four td
  · exact checkRun_two td
  · exact checkRun_two ts
  · exact checkRun_four td
  · exact checkRun_four ts

/-- Settles O13: the checks come first in every operation. -/
theorem failedCheckRefusesFirst : Obligations.FailedCheckRefusesFirst :=
  fun _ _ _ h => exec_of_check_refuses h

theorem written_setTemp (s : State) (i : Temp) (v : Word) : ∀ j ∈ [i.val], (s.setTemp i.val v).temp j ≠ none := by
  intro j hj
  rw [List.mem_singleton.mp hj, State.temp_setTemp_self _ _ _ i.isLt]
  simp

theorem written_setRun (s : State) (i : Temp) (vs : List Word) (h : i.val + vs.length ≤ 16) :
    ∀ j ∈ runOf i vs.length, (s.setRun i.val vs).temp j ≠ none := by
  intro j hj
  obtain ⟨k, hk, rfl⟩ := List.mem_map.mp hj
  have hk := List.mem_range.mp hk
  rw [State.temp_setRun _ _ _ _ h, if_pos (by omega)]
  simp [hk]

theorem mem_runOf {i : Temp} {n k : Nat} (h : k < n) : i.val + k ∈ runOf i n :=
  List.mem_map.mpr ⟨k, List.mem_range.mpr h, rfl⟩

/-- A checked operation with written sources completes and writes its destinations. -/
theorem exec_completes {i : Instr} {s : State} (hcheck : checkInstr s.cfg i = none)
    (hsources : ∀ j ∈ sources i, s.temp j ≠ none) :
    ∃ u : State, exec i s = .next u.advance ∧ u.pc = s.pc ∧ u.refused = s.refused ∧ u.faulted = s.faulted
      ∧ ∀ j ∈ dests i, u.temp j ≠ none := by
  have value : ∀ j ∈ sources i, ∃ v, s.temp j = some v := fun j hj => Option.ne_none_iff_exists'.mp (hsources j hj)
  cases i with
  | rd td reg =>
    rcases checkReg_none.mp hcheck with hclass | hclass
    · exact ⟨_, exec_rd_storage hclass, rfl, rfl, rfl, written_setTemp _ td _⟩
    · exact ⟨_, exec_rd_strobe hclass, rfl, rfl, rfl, written_setTemp _ td _⟩
  | wr reg ts =>
    obtain ⟨v, hv⟩ := value ts.val (by simp [sources])
    rcases checkReg_none.mp hcheck with hclass | hclass
    · exact ⟨_, exec_wr_storage hclass hv, by simp, by simp, by simp, by simp [dests]⟩
    · exact ⟨_, exec_wr_strobe hclass hv, rfl, rfl, rfl, by simp [dests]⟩
  | fext td ts lsb wm1 =>
    obtain ⟨x, hx⟩ := value ts.val (by simp [sources])
    exact ⟨_, exec_fext hcheck hx, rfl, rfl, rfl, written_setTemp _ td _⟩
  | fins td ts lsb wm1 =>
    obtain ⟨old, hold⟩ := value td.val (by simp [sources])
    obtain ⟨val, hval⟩ := value ts.val (by simp [sources])
    exact ⟨_, exec_fins hcheck hold hval, rfl, rfl, rfl, written_setTemp _ td _⟩
  | firPack td ts =>
    obtain ⟨dlc, h0⟩ := value _ (mem_runOf (i := ts) (k := 0) (by decide))
    obtain ⟨unk, h1⟩ := value _ (mem_runOf (i := ts) (k := 1) (by decide))
    obtain ⟨rtr, h2⟩ := value _ (mem_runOf (i := ts) (k := 2) (by decide))
    obtain ⟨ff, h3⟩ := value _ (mem_runOf (i := ts) (k := 3) (by decide))
    exact ⟨_, exec_firPack hcheck h0 h1 h2 h3, rfl, rfl, rfl, written_setTemp _ td _⟩
  | firUnpack td ts =>
    obtain ⟨x, hx⟩ := value ts.val (by simp [sources])
    exact ⟨_, exec_firUnpack hcheck hx, by simp, by simp, by simp,
      written_setRun _ td (firUnpack x) (checkRun_none hcheck)⟩
  | encStd td ts =>
    obtain ⟨x, hx⟩ := value ts.val (by simp [sources])
    exact ⟨_, exec_encStd hcheck hx, by simp, by simp, by simp,
      written_setRun _ td (Machine.encStd x) (checkRun_none hcheck)⟩
  | decStd td ts =>
    obtain ⟨l0, h0⟩ := value _ (mem_runOf (i := ts) (k := 0) (by decide))
    obtain ⟨l1, h1⟩ := value _ (mem_runOf (i := ts) (k := 1) (by decide))
    exact ⟨_, exec_decStd hcheck h0 h1, rfl, rfl, rfl, written_setTemp _ td _⟩
  | encExt td ts =>
    obtain ⟨x, hx⟩ := value ts.val (by simp [sources])
    exact ⟨_, exec_encExt hcheck hx, by simp, by simp, by simp,
      written_setRun _ td (Machine.encExt x) (checkRun_none hcheck)⟩
  | decExt td ts =>
    obtain ⟨l0, h0⟩ := value _ (mem_runOf (i := ts) (k := 0) (by decide))
    obtain ⟨l1, h1⟩ := value _ (mem_runOf (i := ts) (k := 1) (by decide))
    obtain ⟨l2, h2⟩ := value _ (mem_runOf (i := ts) (k := 2) (by decide))
    obtain ⟨l3, h3⟩ := value _ (mem_runOf (i := ts) (k := 3) (by decide))
    exact ⟨_, exec_decExt hcheck h0 h1 h2 h3, rfl, rfl, rfl, written_setTemp _ td _⟩
  | li td imm => exact ⟨_, exec_li, rfl, rfl, rfl, written_setTemp _ td _⟩

/-- Settles O15: the operation's meaning applies, and it writes a temporary, a run of them, or none. -/
theorem checkedOperationWithWrittenSourcesCompletes : Obligations.CheckedOperationWithWrittenSourcesCompletes := by
  intro i s hcheck hsources
  obtain ⟨u, hexec, hpc, hr, hf, hdests⟩ := exec_completes hcheck hsources
  exact ⟨u.advance, hexec, congrArg (· + 1) hpc, hr, hf, hdests⟩

end Sys2Proof.Machine

/-! ## Bytes of the window, and the states after power-on (20_memory.md R73, 10_state.md R60) -/

namespace Sys2Proof.Machine

/-- Settles O24: a byte after a word was written, and a word as its bytes, are laws of the window. -/
theorem windowBytesAreLittleEndian : Obligations.WindowBytesAreLittleEndian := by
  refine fun m a k v hwf hk => ⟨?_, (byteOf_readWord m a k hk).symm⟩
  rw [Memory.readByte_writeWord hwf, if_pos (by omega), Nat.add_sub_cancel_left]
  rfl

theorem Memory.wf_nil : Memory.wf [] := ⟨.nil, by simp⟩

theorem Memory.readByte_of_unlisted {m : Memory} {k : Nat} (h : ∀ c ∈ m, c.1 ≠ k) : m.readByte k = Memory.unlisted := by
  induction m with
  | nil => rfl
  | cons c m ih =>
    rw [Memory.readByte, if_neg (h c List.mem_cons_self)]
    exact ih fun d hd => h d (List.mem_cons_of_mem _ hd)

/-- A word none of whose bytes is listed holds 0. -/
theorem Memory.readWord_of_unlisted {m : Memory} {a : Nat} (h : ∀ c ∈ m, c.1 / 4 ≠ a) : m.readWord a = 0 := by
  have byte : ∀ k < 4, m.readByte (4 * a + k) = Memory.unlisted := fun k hk =>
    Memory.readByte_of_unlisted fun c hc hck => h c hc (by omega)
  have h0 := byte 0 (by decide)
  rw [Nat.add_zero] at h0
  rw [Memory.readWord, byte 3 (by decide), byte 2 (by decide), byte 1 (by decide), h0]
  rfl

/-- Settles O43: the reset window lists bytes of words 0, 2 and 13 only, all implemented; every other word is 0. -/
theorem resetMeetsTheInvariant : Obligations.ResetMeetsTheInvariant := by
  refine ⟨by decide, fun a => ?_⟩
  by_cases h : a = 0 ∨ a = 2 ∨ a = 13
  · rcases h with rfl | rfl | rfl <;> decide
  · have hzero : State.reset.reg a = 0 := by
      refine Memory.readWord_of_unlisted fun c hc => ?_
      simp only [State.reset, List.mem_cons, List.not_mem_nil, or_false] at hc
      rcases hc with rfl | rfl | rfl <;> simp only <;> omega
    rw [hzero]
    exact BitVec.zero_and

theorem State.temp_reset (i : Nat) : State.reset.temp i = none := by
  by_cases hi : i < 16 <;> simp [State.temp, State.reset, hi]

/-- Settles O45: the fields of the reset state. -/
theorem resetLeavesHarnessEmpty : Obligations.ResetLeavesHarnessEmpty :=
  ⟨State.temp_reset, rfl, rfl, rfl, rfl⟩

/-- Loading words changes the window and nothing else. -/
theorem State.loadWords_eq (vs : List Word) : ∀ (s : State) (a : Nat),
    s.loadWords a vs = { s with regs := (s.loadWords a vs).regs } := by
  induction vs with
  | nil => intro s a; rfl
  | cons v vs ih => intro s a; rw [State.loadWords, ih]; rfl

theorem State.wf_loadWords (vs : List Word) : ∀ (s : State) (a : Nat), s.regs.wf → (s.loadWords a vs).regs.wf := by
  induction vs with
  | nil => intro s a h; exact h
  | cons v vs ih => intro s a h; exact ih _ _ (State.wf_setReg h _ _)

/-- Word `b` after loading `vs` from `a` on: its entry in its storage bits, or what it held. -/
theorem State.reg_loadWords (vs : List Word) : ∀ (s : State) (a b : Nat), s.regs.wf →
    (s.loadWords a vs).reg b =
      if a ≤ b ∧ b < a + vs.length then (vs[b - a]?).getD 0 &&& s.cfg.storageMask b else s.reg b := by
  induction vs with
  | nil => intro s a b _; rw [if_neg (by simp)]; rfl
  | cons v vs ih =>
    intro s a b h
    rw [State.loadWords, ih _ _ _ (State.wf_setReg h _ _), State.setReg_cfg, State.reg_setReg h, List.length_cons]
    by_cases hb : b = a
    · subst hb; simp
    · by_cases hin : a + 1 ≤ b ∧ b < a + 1 + vs.length
      · obtain ⟨k, rfl⟩ : ∃ k, b = a + 1 + k := ⟨b - (a + 1), by omega⟩
        rw [if_pos hin, if_pos (by omega), show a + 1 + k - (a + 1) = k by omega,
          show a + 1 + k - a = k + 1 by omega, List.getElem?_cons_succ]
      · rw [if_neg hin, if_neg (Ne.symm hb), if_neg (by omega)]

/-- The words after power-on: the contents given, in their storage bits. -/
theorem State.reg_powerOn (cfg : Config) (script : List OpWord) (schedule : List Turn) (r : List Word) (m : CMode)
    (a : Nat) : (State.powerOn cfg script schedule r m).reg a = (r[a]?).getD 0 &&& cfg.storageMask a := by
  rw [State.powerOn, State.reg_loadWords _ _ _ _ Memory.wf_nil, Nat.sub_zero, Nat.zero_add]
  by_cases ha : a < r.length
  · rw [if_pos ⟨Nat.zero_le a, ha⟩]
  · rw [if_neg fun h => ha h.2, List.getElem?_eq_none (by omega), Option.getD_none]
    exact (Memory.readWord_of_unlisted (by simp)).trans BitVec.zero_and.symm

/-- Settles O44: loading the contents reaches the window alone, and each entry keeps to its storage. -/
theorem powerOnStatesAreAnyContents : Obligations.PowerOnStatesAreAnyContents := by
  rintro cfg script schedule r m _ rfl
  have hreg := State.reg_powerOn cfg script schedule r m
  have heq : State.powerOn cfg script schedule r m = { State.reset with
      cfg, script, schedule, cmodeIn := m, regs := (State.powerOn cfg script schedule r m).regs } :=
    State.loadWords_eq r _ 0
  have hcfg : (State.powerOn cfg script schedule r m).cfg = cfg := by rw [heq]
  refine ⟨⟨State.wf_loadWords r _ 0 Memory.wf_nil, fun a => ?_⟩, hreg, fun i => ?_, ?_, ?_, ?_, ?_, fun hfree => ?_, hcfg,
    ?_, ?_⟩
  · rw [hreg, hcfg, BitVec.and_assoc, BitVec.and_not_self]
    exact BitVec.and_zero
  · rw [heq]; exact State.temp_reset i
  · rw [heq]; rfl
  · rw [heq]; rfl
  · rw [heq]; rfl
  · rw [heq]; rfl
  · rw [heq]; simp only [State.cmode, hfree]
  · rw [heq]
  · rw [heq]

end Sys2Proof.Machine

/-! ## What an operation leaves alone -/

namespace Sys2Proof.Machine

theorem Completes.of_no_bus {i : Instr} {s u : State} (hi : busWord i = none) (h : Completes i s u) :
    u = { s with temps := u.temps } ∧ ∀ j, j ∉ dests i → u.temp j = s.temp j := by
  rcases h with ⟨_, hu, htemps⟩ | ⟨_, _, _, rfl, _⟩ | ⟨_, _, _, rfl, _⟩
  · exact ⟨hu, htemps⟩
  · cases hi
  · cases hi

theorem Completes.of_rd {td : Temp} {reg : RegIdx} {s u : State} (h : Completes (.rd td reg) s u) :
    ∃ v, u = ((s.drawn).emit (.rd reg.val v)).setTemp td.val v := by
  rcases h with ⟨hi, _⟩ | ⟨_, _, v, hi, _, hu, _⟩ | ⟨_, _, _, hi, _⟩
  · cases hi
  · cases hi; exact ⟨v, hu⟩
  · cases hi

theorem Completes.of_wr {reg : RegIdx} {ts : Temp} {s u : State} (h : Completes (.wr reg ts) s u) :
    ∃ v, s.temp ts.val = some v ∧ ((s.cfg.wordClass reg.val = .strobe ∧ u = s.emit (.cmd v))
        ∨ (s.cfg.wordClass reg.val = .storage ∧ u = s.writeStorage reg.val v)) := by
  rcases h with ⟨hi, _⟩ | ⟨_, _, _, hi, _⟩ | ⟨_, _, v, hi, hv, hu⟩
  · cases hi
  · cases hi
  · cases hi; exact ⟨v, hv, hu⟩

/-- Settles O48: a stop leaves all but the marks, and an operation off the bus completes in its destinations alone. -/
theorem pureOperationsTouchOnlyTheirTemps : Obligations.PureOperationsTouchOnlyTheirTemps := by
  intro i s t hi h
  rcases exec_cases h with ⟨e, rfl⟩ | ⟨u, rfl, hu⟩
  · exact ⟨fun j _ => s.stop_temp e j, by cases e <;> rfl, fun k => by simp⟩
  · obtain ⟨heq, htemps⟩ := hu.of_no_bus hi
    exact ⟨htemps, by rw [heq], fun k => by rw [heq]⟩

/-- Settles O49: a stop records nothing, and a completed RD is one event and one temporary. -/
theorem readFrame : Obligations.ReadFrame := by
  intro td reg s t h
  rcases exec_cases h with ⟨e, rfl⟩ | ⟨u, rfl, hu⟩
  · exact ⟨fun j _ => s.stop_temp e j, by cases e <;> rfl, fun k => by simp, .inl (s.stop_hist e)⟩
  · obtain ⟨v, rfl⟩ := hu.of_rd
    refine ⟨fun j hj => ?_, rfl, fun k => rfl, .inr ⟨v, rfl⟩⟩
    exact State.temp_setTemp_ne _ _ _ _ (Ne.symm hj)

/-- A byte of the window is unchanged when its word is. -/
theorem readByte_eq_of_reg_eq {s t : State} {k : Nat} (h : t.reg (k / 4) = s.reg (k / 4)) :
    t.regs.readByte k = s.regs.readByte k := by
  have hbyte := congrArg (byteOf · (k % 4)) h
  have hk : 4 * (k / 4) + k % 4 = k := by omega
  simpa only [State.reg, byteOf_readWord _ _ _ (Nat.mod_lt k (by decide : 0 < 4)), hk] using hbyte

/-- A WR leaves every word but its own, and the mailbox words where it changes the mode. -/
theorem State.reg_writeStorage_other {s : State} (hwf : s.regs.wf) {a b : Nat} {v : Word} (hab : a ≠ b)
    (hm : ¬ (s.modeChanges a v ∧ isMailbox s.cfg b = true)) : (s.writeStorage a v).reg b = s.reg b := by
  rw [isMailbox_iff] at hm
  rw [State.reg_writeStorage hwf, if_neg hm, if_neg hab]

/-- Settles O50: a stop and a strobe leave the window, and a WR of a storage word leaves the other words. -/
theorem writeFrame : Obligations.WriteFrame := by
  intro reg ts s t hwf h
  rcases exec_cases h with ⟨e, rfl⟩ | ⟨u, rfl, hu⟩
  · exact ⟨s.stop_temps e, by cases e <;> rfl, fun k _ _ => by simp, fun _ => s.stop_regs e⟩
  · obtain ⟨v, hv, ⟨_, rfl⟩ | ⟨hclass, rfl⟩⟩ := hu.of_wr
    · exact ⟨rfl, rfl, fun _ _ _ => rfl, fun _ => rfl⟩
    · have heq := s.writeStorage_eq reg.val v
      refine ⟨by rw [heq], by rw [heq], fun k hk hmode => ?_, fun hreg => ?_⟩
      · refine readByte_eq_of_reg_eq (State.reg_writeStorage_other hwf (by omega) ?_)
        rintro ⟨⟨hbind, hzero, hbit⟩, hbox⟩
        exact hmode ⟨hbind, hzero, by simp [hv], by simpa [hv] using hbit, hbox⟩
      · rw [hreg, Config.wordClass_one] at hclass
        cases hclass

end Sys2Proof.Machine

/-! ## Temporaries written by an operation that completes (30_encoding.md R104) -/

namespace Sys2Proof.Machine

theorem writesExactly_setTemp (s : State) (i : Temp) (v : Word) :
    WritesExactly s (s.setTemp i.val v).advance [(i.val, v)] := by
  refine ⟨rfl, fun p hp => ?_, fun j hj => ?_⟩
  · obtain rfl := List.mem_singleton.mp hp
    exact State.temp_setTemp_self _ _ _ i.isLt
  · exact State.temp_setTemp_ne _ _ _ _ fun h => hj (by simp [h])

/-- A run of temporaries beside the values written to it. -/
theorem writesExactly_setRun (s : State) (i : Temp) (vs : List Word) (h : i.val + vs.length ≤ 16) :
    WritesExactly s (s.setRun i.val vs).advance ((vs.zipIdx i.val).map Prod.swap) := by
  refine ⟨by rw [State.setRun_eq]; rfl, fun p hp => ?_, fun j hj => ?_⟩
  · obtain ⟨⟨v, k⟩, hmem, rfl⟩ := List.mem_map.mp hp
    obtain ⟨hlo, hhi, hv⟩ := List.mem_zipIdx hmem
    rw [State.advance_temp, Prod.fst_swap, State.temp_setRun _ _ _ _ h, if_pos ⟨hlo, hhi⟩]
    simp [hv]
  · rw [State.advance_temp, State.temp_setRun _ _ _ _ h, if_neg]
    rintro ⟨hlo, hhi⟩
    refine hj (List.mem_map.mpr ⟨(j, vs[j - i.val]), List.mem_map.mpr ⟨(vs[j - i.val], j), ?_, rfl⟩, rfl⟩)
    exact List.mk_mem_zipIdx_iff_le_and_getElem?_sub.mpr ⟨hlo, by simp⟩

theorem WritesExactly.temp {s t : State} {l : List (Nat × Word)} (h : WritesExactly s t l) {i : Nat} {v : Word}
    (hmem : (i, v) ∈ l) : t.temp i = some v := by
  obtain ⟨_, hwritten, _⟩ := h
  exact hwritten (i, v) hmem

/-- Settles O37: LI has no check and no source. -/
theorem liLoadsTheImmediate : Obligations.LiLoadsTheImmediate :=
  fun td imm s => ⟨_, exec_li, writesExactly_setTemp s td imm⟩

end Sys2Proof.Machine

/-! ## RD and WR (40_register_access.md R131 to R135, 20_memory.md R76, R77) -/

namespace Sys2Proof.Machine

/-- Settles O16: a storage word and the strobe each have their meaning of RD. -/
theorem readGivesStoredBitsAndDraws : Obligations.ReadGivesStoredBitsAndDraws := by
  rintro td reg s v (⟨hclass, rfl⟩ | ⟨hreg, rfl⟩)
  · exact ⟨_, exec_rd_storage hclass, writesExactly_setTemp ((s.drawn).emit (.rd reg.val _)) td _⟩
  · have hclass : s.cfg.wordClass reg.val = .strobe := hreg ▸ s.cfg.wordClass_one
    exact ⟨_, exec_rd_strobe hclass, writesExactly_setTemp ((s.drawn).emit (.rd reg.val _)) td _⟩

/-- Settles O17: the checks refuse both; the default window is counted out. -/
theorem readOutsideOrOfSlotIsRefused : Obligations.ReadOutsideOrOfSlotIsRefused := by
  refine ⟨fun td reg s => ⟨fun hpast => ?_, fun hslot => ?_⟩, by decide, fun a _ => ?_⟩
  · exact exec_of_check_refuses (checkReg_of_past_window hpast)
  · exact exec_of_check_refuses (checkReg_of_reservedSlot hslot)
  · by_cases ha : a < 34
    · interval_cases a <;> decide
    · have hout : defaultConfig.wordClass a = .outside := (defaultConfig.wordClass_outside a).mpr (by
        rw [show defaultConfig.nwords = 34 by decide]; omega)
      simp [hout]; omega

/-- Settles O18: without a change of mode a WR of a storage word is one masked store and one event. -/
theorem writeStoresImplementedBits : Obligations.WriteStoresImplementedBits := by
  intro reg ts s v hwf hclass hv hmode
  refine ⟨_, exec_wr_storage hclass hv, ?_, fun a => ?_⟩
  · rw [State.writeStorage_plain hmode]; rfl
  · rw [State.advance_reg]
    by_cases ha : a = reg.val
    · rw [if_pos ha, ha, State.reg_writeStorage_self hwf]
    · rw [if_neg ha, State.reg_writeStorage_other hwf (Ne.symm ha) fun h => hmode h.1]

/-- The words after a write of word `0` that changes the mode. -/
theorem State.reg_writeStorage_switch {s : State} (hwf : s.regs.wf) {v : Word} (hm : s.modeChanges 0 v) (a : Nat) :
    (s.writeStorage 0 v).reg a =
      if a = 0 then v &&& s.cfg.implMask 0
      else if isMailbox s.cfg a then Config.draw (s.draws + (a - s.cfg.mbxBase)) &&& s.cfg.implMask a
      else s.reg a := by
  by_cases ha : a = 0
  · rw [if_pos ha, ha, State.reg_writeStorage_self hwf]
  · rw [if_neg ha, State.reg_writeStorage hwf, if_neg (Ne.symm ha)]
    exact if_congr ((and_iff_right hm).trans (isMailbox_iff _ _).symm) rfl rfl

theorem State.draws_writeStorage_switch {s : State} {a : Nat} {v : Word} (hm : s.modeChanges a v) :
    (s.writeStorage a v).draws = s.draws + s.cfg.mbxWords := by
  rw [State.writeStorage_switch hm, State.switchMode_eq]; rfl

theorem State.hist_writeStorage_switch {s : State} {a : Nat} {v : Word} (hm : s.modeChanges a v) :
    (s.writeStorage a v).hist = s.hist ++ [Event.wr a v, .mode (modeOfBit (v.getLsbD 0))] := by
  simp [State.writeStorage_switch hm]

theorem State.cmode_of_modRm {s : State} (h : s.cfg.cmodeBinding = .modRm) :
    s.cmode = modeOfBit ((s.reg 0).getLsbD 0) := by
  simp only [cmode, h]

/-- Settles O19: the WR stores, then switches the mode, which redraws the mailbox words. -/
theorem writeOfModeBitRedrawsMailbox : Obligations.WriteOfModeBitRedrawsMailbox := by
  intro ts s v hwf hv hbind hbit
  have hm : s.modeChanges 0 v := ⟨hbind, rfl, hbit⟩
  refine ⟨_, exec_wr_storage (reg := 0) s.cfg.wordClass_zero hv, ?_, State.reg_writeStorage_switch hwf hm, fun himpl => ?_⟩
  · have heq := s.writeStorage_eq 0 v
    rw [State.draws_writeStorage_switch hm, State.hist_writeStorage_switch hm] at heq
    exact congrArg State.advance heq
  · have hcfg : (s.writeStorage 0 v).advance.cfg.cmodeBinding = .modRm := by simpa using hbind
    refine (State.cmode_of_modRm hcfg).trans ?_
    rw [State.advance_reg, State.reg_writeStorage_self hwf, BitVec.getLsbD_and, himpl, Bool.and_true]

end Sys2Proof.Machine

/-! ## Bit fields and the frame record (41_bitfield.md R150 to R159) -/

namespace Sys2Proof.Machine

/-- Settles O25: span check, then the source, then the field. -/
theorem fextGivesTheField : Obligations.FextGivesTheField := by
  refine fun td ts lsb wm1 s => ⟨fun hspan => ?_, fun hspan hnone => ?_, fun hspan x hx => ?_⟩
  · exact exec_of_check_refuses (checkSpan_of_past_word hspan)
  · exact firstUnwrittenSourceFaults _ s _ ((checkSpan_iff lsb wm1).mpr hspan) (by simp [sources, hnone])
  · rw [← fieldGet_eq]
    exact ⟨_, exec_fext ((checkSpan_iff lsb wm1).mpr hspan) hx, writesExactly_setTemp s td _⟩

/-- Settles O26: span check, then `td`, then `ts`, then the field put bit by bit. -/
theorem finsChangesOnlyTheField : Obligations.FinsChangesOnlyTheField := by
  refine fun td ts lsb wm1 s => ⟨fun hspan => ?_, fun hspan hnone => ?_, fun hspan hsome hnone => ?_,
    fun hspan old val hold hval => ?_⟩
  · exact exec_of_check_refuses (checkSpan_of_past_word hspan)
  · exact firstUnwrittenSourceFaults _ s _ ((checkSpan_iff lsb wm1).mpr hspan) (by simp [sources, hnone])
  · exact firstUnwrittenSourceFaults _ s _ ((checkSpan_iff lsb wm1).mpr hspan) (by simp [sources, hsome, hnone])
  · exact ⟨_, _, exec_fins ((checkSpan_iff lsb wm1).mpr hspan) hold hval, writesExactly_setTemp s td _,
      fun j hj => getLsbD_fieldPut _ _ _ _ j hj⟩

/-- FIR.PACK with its sources written; `v` is the packed record, however it is given. -/
theorem exec_firPack_writes {td ts : Temp} {s : State} {dlc unk rtr ff v : Word} (hrun : ts.val ≤ 12)
    (h0 : s.temp ts.val = some dlc) (h1 : s.temp (ts.val + 1) = some unk) (h2 : s.temp (ts.val + 2) = some rtr)
    (h3 : s.temp (ts.val + 3) = some ff) (hv : firPack dlc unk rtr ff = v) :
    ∃ t, exec (.firPack td ts) s = .next t ∧ WritesExactly s t [(td.val, v)] := by
  subst hv
  exact ⟨_, exec_firPack ((checkRun_iff ts 4).mpr (by omega)) h0 h1 h2 h3, writesExactly_setTemp s td _⟩

/-- FIR.UNPACK with its source written; `dlc, unk, rtr, ff` are the record's fields, however they are given. -/
theorem exec_firUnpack_writes {td ts : Temp} {s : State} {x dlc unk rtr ff : Word} (hrun : td.val ≤ 12)
    (hx : s.temp ts.val = some x) (hv : firUnpack x = [dlc, unk, rtr, ff]) :
    ∃ t, exec (.firUnpack td ts) s = .next t ∧ WritesExactly s t
      [(td.val, dlc), (td.val + 1, unk), (td.val + 2, rtr), (td.val + 3, ff)] := by
  refine ⟨_, exec_firUnpack ((checkRun_iff td 4).mpr (by omega)) hx, ?_⟩
  rw [hv]
  exact writesExactly_setRun s td _ (by simp; omega)

/-- Settles O27: the packed record, side by side. -/
theorem firPackLaysOutTheRecord : Obligations.FirPackLaysOutTheRecord :=
  fun _ _ _ _ _ _ _ hrun h0 h1 h2 h3 => exec_firPack_writes hrun h0 h1 h2 h3 (firPack_eq ..)

/-- Settles O28: the record's fields, in the run from `td` on. -/
theorem firUnpackSplitsTheRecord : Obligations.FirUnpackSplitsTheRecord :=
  fun _ _ _ x hrun hx => exec_firUnpack_writes hrun hx (firUnpack_eq x)

/-- The `w` low bits of a word, as a number. -/
theorem and_ones_eq (x : Word) {w : Nat} (h : w ≤ 32) : x &&& ones w = BitVec.ofNat 32 (x.toNat % 2 ^ w) := by
  apply BitVec.eq_of_toNat_eq
  have hlt : x.toNat % 2 ^ w < 2 ^ 32 := lt_of_le_of_lt (Nat.mod_le _ _) x.isLt
  rw [BitVec.toNat_and, toNat_ones w h, Nat.and_two_pow_sub_one_eq_mod, BitVec.toNat_ofNat, Nat.mod_eq_of_lt hlt]

/-- A field is the low bits of `y` when it agrees with them bit by bit. -/
theorem fieldGet_eq_ofNat_mod {x y : Word} {l w : Nat} (hw : w ≤ 32) (h : ∀ j < w, x.getLsbD (l + j) = y.getLsbD j) :
    fieldGet x l w = BitVec.ofNat 32 (y.toNat % 2 ^ w) := by
  rw [← and_ones_eq y hw]
  apply BitVec.eq_of_getLsbD_eq
  intro j hj
  rw [getLsbD_fieldGet, BitVec.getLsbD_and, getLsbD_ones]
  by_cases hjw : j < w
  · simp [h j hjw, hjw, hj]
  · simp [hjw]

/-- A field of the packed record is the low bits of the value packed there. -/
theorem firUnpack_firPack (dlc unk rtr ff : Word) :
    firUnpack (firPack dlc unk rtr ff) =
      [BitVec.ofNat 32 (dlc.toNat % 16), BitVec.ofNat 32 (unk.toNat % 4), BitVec.ofNat 32 (rtr.toNat % 2),
        BitVec.ofNat 32 (ff.toNat % 2)] := by
  simp only [firUnpack, List.cons.injEq, and_true]
  refine ⟨fieldGet_eq_ofNat_mod (by decide) ?_, fieldGet_eq_ofNat_mod (by decide) ?_,
    fieldGet_eq_ofNat_mod (by decide) ?_, fieldGet_eq_ofNat_mod (by decide) ?_⟩ <;>
    (intro j hj
     interval_cases j <;> simp [firPack])

/-- A word of at most a byte is its own lane. -/
theorem lane_setWidth {w : Nat} (h : w ≤ 8) (x : BitVec w) : lane (x.setWidth 32) = x.setWidth 32 := by
  apply BitVec.eq_of_getLsbD_eq
  intro j _
  rw [getLsbD_lane, BitVec.getLsbD_setWidth]
  by_cases hj : j < 8
  · rw [decide_eq_true hj, Bool.true_and]
  · rw [x.getLsbD_of_ge j (by omega), Bool.and_false, Bool.and_false]

/-- A lane is its eight bits. -/
theorem lane_eq_of_bits {x y : Word} (h : ∀ j < 8, x.getLsbD j = y.getLsbD j) : lane x = lane y := by
  apply BitVec.eq_of_getLsbD_eq
  intro j _
  rw [getLsbD_lane, getLsbD_lane]
  by_cases hj : j < 8
  · rw [h j hj]
  · rw [decide_eq_false hj, Bool.false_and, Bool.false_and]

/-- The packed record is one byte. -/
theorem lane_firPack (dlc unk rtr ff : Word) : lane (firPack dlc unk rtr ff) = firPack dlc unk rtr ff := by
  rw [firPack_eq, lane_setWidth (by decide)]

theorem firPack_of_fields (x : Word) :
    firPack (fieldGet x 0 4) (fieldGet x 4 2) (fieldGet x 6 1) (fieldGet x 7 1) = x &&& 0xFF := by
  rw [← lane_firPack]
  refine lane_eq_of_bits fun j hj => ?_
  interval_cases j <;> simp [firPack, fieldGet, ones]

/-- Settles O29: the packed record's fields are the inputs cut to width, and the fields packed are the low byte. -/
theorem firPackAndUnpackRoundTrip : Obligations.FirPackAndUnpackRoundTrip := by
  refine ⟨fun td ts td' s dlc unk rtr ff hts htd' h0 h1 h2 h3 => ?_, fun td ts td' s x htd hx => ?_⟩
  · obtain ⟨t, ht, hpack⟩ := exec_firPack_writes (td := td) hts h0 h1 h2 h3 rfl
    obtain ⟨u, hu, hfields⟩ := exec_firUnpack_writes htd' (hpack.temp (.head _)) (firUnpack_firPack dlc unk rtr ff)
    exact ⟨t, u, ht, hu, hfields.temp (by simp), hfields.temp (by simp), hfields.temp (by simp), hfields.temp (by simp)⟩
  · obtain ⟨t, ht, hfields⟩ := exec_firUnpack_writes htd hx rfl
    obtain ⟨u, hu, hpack⟩ := exec_firPack_writes (td := td') htd (hfields.temp (.head _))
      (hfields.temp (.tail _ (.head _))) (hfields.temp (.tail _ (.tail _ (.head _))))
      (hfields.temp (.tail _ (.tail _ (.tail _ (.head _))))) (firPack_of_fields x)
    exact ⟨t, u, ht, hu, hpack.temp (.head _)⟩

end Sys2Proof.Machine

/-! ## The identifier codec (42_id_codec.md R180 to R190) -/

namespace Sys2Proof.Machine

/-- ENC.STD with its source written; `l0, l1` are the identifier's lanes, however they are given. -/
theorem exec_encStd_writes {td ts : Temp} {s : State} {id l0 l1 : Word} (hrun : td.val ≤ 14)
    (hid : s.temp ts.val = some id) (hv : encStd id = [l0, l1]) :
    ∃ t, exec (.encStd td ts) s = .next t ∧ WritesExactly s t [(td.val, l0), (td.val + 1, l1)] := by
  refine ⟨_, exec_encStd ((checkRun_iff td 2).mpr (by omega)) hid, ?_⟩
  rw [hv]
  exact writesExactly_setRun s td _ (by simp; omega)

/-- DEC.STD with its lanes written; `v` is the identifier they join to, however it is given. -/
theorem exec_decStd_writes {td ts : Temp} {s : State} {l0 l1 v : Word} (hrun : ts.val ≤ 14)
    (h0 : s.temp ts.val = some l0) (h1 : s.temp (ts.val + 1) = some l1) (hv : decStd l0 l1 = v) :
    ∃ t, exec (.decStd td ts) s = .next t ∧ WritesExactly s t [(td.val, v)] := by
  subst hv
  exact ⟨_, exec_decStd ((checkRun_iff ts 2).mpr (by omega)) h0 h1, writesExactly_setTemp s td _⟩

/-- ENC.EXT with its source written; `l0` to `l3` are the identifier's lanes, however they are given. -/
theorem exec_encExt_writes {td ts : Temp} {s : State} {id l0 l1 l2 l3 : Word} (hrun : td.val ≤ 12)
    (hid : s.temp ts.val = some id) (hv : encExt id = [l0, l1, l2, l3]) :
    ∃ t, exec (.encExt td ts) s = .next t
      ∧ WritesExactly s t [(td.val, l0), (td.val + 1, l1), (td.val + 2, l2), (td.val + 3, l3)] := by
  refine ⟨_, exec_encExt ((checkRun_iff td 4).mpr (by omega)) hid, ?_⟩
  rw [hv]
  exact writesExactly_setRun s td _ (by simp; omega)

/-- DEC.EXT with its lanes written; `v` is the identifier they join to, however it is given. -/
theorem exec_decExt_writes {td ts : Temp} {s : State} {l0 l1 l2 l3 v : Word} (hrun : ts.val ≤ 12)
    (h0 : s.temp ts.val = some l0) (h1 : s.temp (ts.val + 1) = some l1) (h2 : s.temp (ts.val + 2) = some l2)
    (h3 : s.temp (ts.val + 3) = some l3) (hv : decExt l0 l1 l2 l3 = v) :
    ∃ t, exec (.decExt td ts) s = .next t ∧ WritesExactly s t [(td.val, v)] := by
  subst hv
  exact ⟨_, exec_decExt ((checkRun_iff ts 4).mpr (by omega)) h0 h1 h2 h3, writesExactly_setTemp s td _⟩

/-- Settles O30: the lanes bit by bit. -/
theorem encStdGivesTwoLanes : Obligations.EncStdGivesTwoLanes :=
  fun _ _ _ id hrun hid => exec_encStd_writes hrun hid (encStd_eq id)

/-- Settles O31: the joined identifier bit by bit. -/
theorem decStdJoinsTwoLanes : Obligations.DecStdJoinsTwoLanes :=
  fun _ _ _ l0 l1 hrun h0 h1 => exec_decStd_writes hrun h0 h1 (decStd_eq l0 l1)

/-- Settles O32: the lanes bit by bit. -/
theorem encExtGivesFourLanes : Obligations.EncExtGivesFourLanes :=
  fun _ _ _ id hrun hid => exec_encExt_writes hrun hid (encExt_eq id)

/-- Settles O33: the joined identifier bit by bit. -/
theorem decExtJoinsFourLanes : Obligations.DecExtJoinsFourLanes :=
  fun _ _ _ l0 l1 l2 l3 hrun h0 h1 h2 h3 => exec_decExt_writes hrun h0 h1 h2 h3 (decExt_eq l0 l1 l2 l3)

/-- R188 for the lanes of a standard identifier. -/
theorem decStd_of_lanes (id : Word) :
    decStd (lane (id >>> 3)) (lane (id <<< 5)) = BitVec.ofNat 32 (id.toNat % 2 ^ 11) := by
  rw [← and_ones_eq _ (by decide)]
  apply BitVec.eq_of_getLsbD_eq
  intro i hi
  rw [BitVec.getLsbD_and, getLsbD_ones]
  interval_cases i <;> simp [decStd, lane]

/-- R188 for the lanes of an extended identifier. -/
theorem decExt_of_lanes (id : Word) :
    decExt (lane (id >>> 21)) (lane (id >>> 13)) (lane (id >>> 5)) (lane (id <<< 3)) =
      BitVec.ofNat 32 (id.toNat % 2 ^ 29) := by
  rw [← and_ones_eq _ (by decide)]
  apply BitVec.eq_of_getLsbD_eq
  intro i hi
  rw [BitVec.getLsbD_and, getLsbD_ones]
  interval_cases i <;> simp [decExt, lane]

/-- R190: the lanes of an extended identifier read as those of a standard one. -/
theorem decStd_of_ext_lanes (id : Word) :
    decStd (lane (id >>> 21)) (lane (id >>> 13)) = (id.extractLsb' 18 11).setWidth 32 := by
  apply BitVec.eq_of_getLsbD_eq
  intro i hi
  interval_cases i <;> simp [decStd, lane]

/-- R189 for the lanes of a standard identifier. -/
theorem encStd_decStd (l0 l1 : Word) : encStd (decStd l0 l1) = [l0 &&& 0xFF, l1 &&& 0xE0] := by
  have hpad : l1 &&& 0xE0 = lane (l1 &&& 0xE0) := by rw [lane, BitVec.and_assoc]; rfl
  rw [hpad]
  simp only [encStd, List.cons.injEq, and_true]
  refine ⟨lane_eq_of_bits ?_, lane_eq_of_bits ?_⟩ <;>
    (intro j hj
     interval_cases j <;> simp [decStd, lane])

/-- R189 for the lanes of an extended identifier. -/
theorem encExt_decExt (l0 l1 l2 l3 : Word) :
    encExt (decExt l0 l1 l2 l3) = [l0 &&& 0xFF, l1 &&& 0xFF, l2 &&& 0xFF, l3 &&& 0xF8] := by
  have hpad : l3 &&& 0xF8 = lane (l3 &&& 0xF8) := by rw [lane, BitVec.and_assoc]; rfl
  rw [hpad]
  simp only [encExt, List.cons.injEq, and_true]
  refine ⟨lane_eq_of_bits ?_, lane_eq_of_bits ?_, lane_eq_of_bits ?_, lane_eq_of_bits ?_⟩ <;>
    (intro j hj
     interval_cases j <;> simp [decExt, lane])

/-- A word below `2 ^ w` is its own remainder. -/
theorem ofNat_mod_two_pow {x : Word} {w : Nat} (h : x.toNat < 2 ^ w) : BitVec.ofNat 32 (x.toNat % 2 ^ w) = x := by
  rw [Nat.mod_eq_of_lt h, BitVec.ofNat_toNat, BitVec.setWidth_eq]

/-- Settles O34: decoding joins the lanes that encoding left. -/
theorem decodeAfterEncodeIsTheIdentifier : Obligations.DecodeAfterEncodeIsTheIdentifier := by
  refine fun td ts td' s id hid => ⟨fun hrun => ?_, fun hrun => ?_⟩
  · obtain ⟨t, ht, hlanes⟩ := exec_encStd_writes hrun hid rfl
    obtain ⟨u, hu, hjoin⟩ := exec_decStd_writes (td := td') hrun (hlanes.temp (.head _)) (hlanes.temp (.tail _ (.head _)))
      (decStd_of_lanes id)
    have hval := hjoin.temp (.head _)
    exact ⟨t, u, ht, hu, hval, fun hle => by rw [hval, ofNat_mod_two_pow (by omega)]⟩
  · obtain ⟨t, ht, hlanes⟩ := exec_encExt_writes hrun hid rfl
    obtain ⟨u, hu, hjoin⟩ := exec_decExt_writes (td := td') hrun (hlanes.temp (.head _)) (hlanes.temp (.tail _ (.head _)))
      (hlanes.temp (.tail _ (.tail _ (.head _)))) (hlanes.temp (.tail _ (.tail _ (.tail _ (.head _))))) (decExt_of_lanes id)
    have hval := hjoin.temp (.head _)
    exact ⟨t, u, ht, hu, hval, fun hle => by rw [hval, ofNat_mod_two_pow (by omega)]⟩

/-- Settles O35: encoding splits the identifier that decoding joined. -/
theorem encodeAfterDecodeClearsThePadding : Obligations.EncodeAfterDecodeClearsThePadding := by
  refine ⟨fun td ts td' s l0 l1 hts htd' h0 h1 => ?_, fun td ts td' s l0 l1 l2 l3 hts htd' h0 h1 h2 h3 => ?_⟩
  · obtain ⟨t, ht, hjoin⟩ := exec_decStd_writes (td := td) hts h0 h1 rfl
    obtain ⟨u, hu, hlanes⟩ := exec_encStd_writes htd' (hjoin.temp (.head _)) (encStd_decStd l0 l1)
    exact ⟨t, u, ht, hu, hlanes.temp (by simp), hlanes.temp (by simp)⟩
  · obtain ⟨t, ht, hjoin⟩ := exec_decExt_writes (td := td) hts h0 h1 h2 h3 rfl
    obtain ⟨u, hu, hlanes⟩ := exec_encExt_writes htd' (hjoin.temp (.head _)) (encExt_decExt l0 l1 l2 l3)
    exact ⟨t, u, ht, hu, hlanes.temp (by simp), hlanes.temp (by simp), hlanes.temp (by simp), hlanes.temp (by simp)⟩

/-- Settles O36: DEC.STD joins the first two lanes that ENC.EXT left. -/
theorem standardDecodeOfExtendedLanes : Obligations.StandardDecodeOfExtendedLanes := by
  intro td ts td' s id hrun hid
  obtain ⟨t, ht, hlanes⟩ := exec_encExt_writes hrun hid rfl
  obtain ⟨u, hu, hjoin⟩ := exec_decStd_writes (td := td') (by omega) (hlanes.temp (.head _))
    (hlanes.temp (.tail _ (.head _))) (decStd_of_ext_lanes id)
  exact ⟨t, u, ht, hu, hjoin.temp (.head _)⟩

end Sys2Proof.Machine

/-! ## Turns of CORE (10_state.md R47, R48) -/

namespace Sys2Proof.Machine

/-- A scheduled turn of CORE is taken whatever HOST's state. -/
theorem step_of_core_turn {s : State} {c : CoreStep} {rest : List Turn} (h : s.schedule = .core c :: rest) :
    step s = .next (({ s with schedule := rest } : State).coreTurn c) := by
  simp only [step, h, State.popTurn_of_schedule_cons h]

theorem State.coreTurn_of_not_may {s : State} {c : CoreStep} (h : s.coreMay c = false) : s.coreTurn c = s :=
  if_neg (by simp [h])

theorem State.coreTurn_coreWrite {s : State} {a : Nat} (h : s.cfg.owns a = true) (v : Word) :
    s.coreTurn (.coreWrite a v) = s.coreWrite a v := if_pos h

theorem State.coreTurn_coreMode {s : State} {m : CMode} (hfree : s.cfg.cmodeBinding = .free) (hm : m ≠ s.cmode) :
    s.coreTurn (.coreMode m) = s.coreMode m := if_pos (by simp [coreMay, hfree, hm])

/-- The words after `CoreWrite`. -/
theorem State.reg_coreWrite_cases {s : State} (hwf : s.regs.wf) (a : Nat) (v : Word) (b : Nat) :
    (s.coreWrite a v).reg b =
      if b = a then v &&& s.cfg.implMask a
      else if s.modeChanges a (v &&& s.cfg.implMask a) ∧ isMailbox s.cfg b = true
      then Config.draw (s.draws + (b - s.cfg.mbxBase)) &&& s.cfg.implMask b
      else s.reg b := by
  rw [State.reg_coreWrite hwf]
  by_cases hb : b = a
  · subst hb
    have hkept : ¬ (s.modeChanges b (v &&& s.cfg.implMask b) ∧ s.cfg.mbxBase ≤ b
        ∧ b < s.cfg.mbxBase + s.cfg.mbxWords) := by
      rintro ⟨⟨_, rfl, _⟩, hbox⟩
      exact absurd ((isMailbox_iff _ _).mpr hbox) (by simp [isMailbox_zero])
    rw [if_neg hkept, if_pos rfl, if_pos rfl]
  · simp only [isMailbox_iff, if_neg hb, if_neg (Ne.symm hb)]

/-- A turn `CoreWrite` of an owned word. -/
theorem step_of_coreWrite_turn {s : State} {a : Nat} {v : Word} {rest : List Turn}
    (h : s.schedule = .core (.coreWrite a v) :: rest) (howns : s.cfg.owns a = true) :
    step s = .next (({ s with schedule := rest } : State).coreWrite a v) :=
  (step_of_core_turn h).trans (congrArg _ (State.coreTurn_coreWrite (s := { s with schedule := rest }) howns v))

/-- A turn of CORE that CORE may not take. -/
theorem step_of_passing_turn {s : State} {c : CoreStep} {rest : List Turn} (h : s.schedule = .core c :: rest)
    (hmay : s.coreMay c = false) : step s = .next { s with schedule := rest } := by
  have hmay' : ({ s with schedule := rest } : State).coreMay c = false := by cases c <;> exact hmay
  exact (step_of_core_turn h).trans (congrArg _ (State.coreTurn_of_not_may hmay'))

/-- Settles O38: an owned word is written, with or without a change of mode; another word's turn passes. -/
theorem coreWriteChangesAnOwnedWord : Obligations.CoreWriteChangesAnOwnedWord := by
  rintro s a v _ rest hwf hsched rfl
  refine ⟨fun howns hm => ⟨_, step_of_coreWrite_turn hsched howns, ?_, fun b => ?_⟩,
    fun howns hm => ⟨_, step_of_coreWrite_turn hsched howns, ?_, fun b => ?_⟩, fun howns => ?_⟩
  · rw [State.coreWrite_plain (s := { s with schedule := rest }) hm]; rfl
  · refine (State.reg_coreWrite_cases (s := { s with schedule := rest }) hwf a v b).trans ?_
    exact if_congr Iff.rfl rfl (if_neg fun h => hm h.1)
  · rw [State.coreWrite_switch (s := { s with schedule := rest }) hm, State.switchMode_eq]
    simp [State.setReg, State.emit]
  · refine (State.reg_coreWrite_cases (s := { s with schedule := rest }) hwf a v b).trans ?_
    exact if_congr Iff.rfl rfl (if_congr (and_iff_right hm) rfl rfl)
  · exact step_of_passing_turn hsched howns

theorem State.cmode_of_free {s : State} (h : s.cfg.cmodeBinding = .free) : s.cmode = s.cmodeIn := by
  simp only [cmode, h]

/-- `CoreMode` sets the mode input and switches the mode. -/
theorem State.coreMode_eq (s : State) (m : CMode) : s.coreMode m = { s with
    cmodeIn := m
    regs := (s.coreMode m).regs
    draws := s.draws + s.cfg.mbxWords
    hist := s.hist ++ [Event.mode m] } := by
  rw [coreMode, switchMode_eq]

/-- Settles O39: CORE may take the turn or it passes. -/
theorem coreModeRedrawsMailbox : Obligations.CoreModeRedrawsMailbox := by
  refine fun s m rest hwf hsched => ⟨fun hfree hm => ?_, fun hpass => ?_⟩
  · have hmode := State.coreTurn_coreMode (s := { s with schedule := rest }) hfree hm
    have heq := ({ s with schedule := rest } : State).coreMode_eq m
    refine ⟨_, (step_of_core_turn hsched).trans (congrArg _ hmode), ?_, heq,
      State.reg_coreMode (s := { s with schedule := rest }) hwf m⟩
    rw [heq]
    exact State.cmode_of_free hfree
  · refine step_of_passing_turn hsched ?_
    rcases hpass with hbind | rfl
    · simp [State.coreMay, hbind]
    · simp [State.coreMay]

theorem State.writeStorage_cmodeIn (s : State) (a : Nat) (v : Word) : (s.writeStorage a v).cmodeIn = s.cmodeIn := by
  rw [writeStorage_eq]

theorem State.coreWrite_cmodeIn (s : State) (a : Nat) (v : Word) : (s.coreWrite a v).cmodeIn = s.cmodeIn := by
  by_cases hm : s.modeChanges a (v &&& s.cfg.implMask a)
  · rw [coreWrite_switch hm, switchMode_eq]; rfl
  · rw [coreWrite_plain hm]; rfl

theorem Completes.keeps_cmodeIn {i : Instr} {s u : State} (h : Completes i s u) : u.cmodeIn = s.cmodeIn := by
  rcases h with ⟨_, hu, _⟩ | ⟨_, _, _, _, _, rfl, _⟩ | ⟨reg, _, v, _, _, ⟨_, rfl⟩ | ⟨_, rfl⟩⟩
  · rw [hu]
  · simp
  · simp
  · exact s.writeStorage_cmodeIn reg.val v

theorem exec_keeps_cmodeIn {i : Instr} {s t : State} (h : exec i s = .next t) : t.cmodeIn = s.cmodeIn := by
  rcases exec_cases h with ⟨e, rfl⟩ | ⟨u, rfl, hu⟩
  · simp
  · exact hu.keeps_cmodeIn

/-- The mode input changes on a turn `CoreMode` of CORE alone. -/
theorem step_cmodeIn {s t : State} (h : step s = .next t) :
    t.cmodeIn = s.cmodeIn ∨ s.schedule.head? = some (.core (.coreMode t.cmodeIn)) := by
  rcases step_cases h with ⟨c, hcore, rfl⟩ | ⟨_, _, rfl⟩ | ⟨_, _, ⟨r, _, rfl⟩ | ⟨i, _, hexec⟩⟩
  · rcases s.popTurn.coreTurn_cases c with ⟨_, hpass⟩ | ⟨a, v, _, _, hwrite⟩ | ⟨m, hc, _, _, hmode⟩
    · rw [hpass]; exact .inl rfl
    · rw [hwrite]; exact .inl (State.coreWrite_cmodeIn _ a v)
    · rw [hmode, State.coreMode_eq, hcore, hc]; exact .inr rfl
  · exact .inl rfl
  · exact .inl (by simp)
  · exact .inl (exec_keeps_cmodeIn (s := s.popTurn) hexec)

/-- Settles O40: under `free` the mode is the mode input; under `mod_rm` it is bit 0 of word 0. -/
theorem controllerModeIsNotHosts : Obligations.ControllerModeIsNotHosts := by
  refine ⟨fun s t h hfree hne => ?_, fun s hbind => ?_⟩
  · have hfree' : t.cfg.cmodeBinding = .free := (step_followsScript h).cfg_eq ▸ hfree
    rw [State.cmode_of_free hfree'] at hne ⊢
    rw [State.cmode_of_free hfree] at hne
    exact (step_cmodeIn h).resolve_left hne
  · rw [State.cmode_of_modRm hbind]
    cases (s.reg 0).getLsbD 0 <;> simp [modeOfBit]

/-- A word that a turn of CORE changes is a word CORE owns, or one of the mailbox region. -/
theorem State.coreTurn_changes {s : State} (hwf : s.regs.wf) {c : CoreStep} {a : Nat}
    (h : (s.coreTurn c).reg a ≠ s.reg a) : s.cfg.owns a = true ∨ isMailbox s.cfg a = true := by
  by_contra hno
  obtain ⟨howns, hbox⟩ := not_or.mp hno
  rcases s.coreTurn_cases c with ⟨_, hpass⟩ | ⟨b, v, _, hb, hwrite⟩ | ⟨m, _, _, _, hmode⟩
  · exact h (by rw [hpass])
  · have hab : a ≠ b := fun hab => howns (hab ▸ hb)
    rw [hwrite, State.reg_coreWrite_cases hwf, if_neg hab, if_neg fun hh => hbox hh.2] at h
    exact h rfl
  · rw [hmode, State.reg_coreMode hwf, if_neg hbox] at h
    exact h rfl

/-- Settles O41: what a turn of CORE leaves is read off its frame, and a changed word is storage either way. -/
theorem coreTurnLeavesHostAlone : Obligations.CoreTurnLeavesHostAlone := by
  intro s c rest hwf hsched
  refine ⟨_, step_of_core_turn hsched, ?_, ?_, ?_, ?_, ?_, ?_, ?_, fun a ha => ?_⟩
  · simp
  · rw [State.coreTurn_eq]
  · rw [State.coreTurn_eq]
  · rw [State.coreTurn_eq]
  · simp
  · simp
  · simp
  · have hwhy : s.cfg.owns a = true ∨ isMailbox s.cfg a = true :=
      State.coreTurn_changes (s := { s with schedule := rest }) hwf ha
    exact ⟨hwhy.elim Config.owns_storage wordClass_of_isMailbox, hwhy⟩

end Sys2Proof.Machine

/-! ## The window's layout and the default parameters (10_state.md R23, R30 to R45) -/

namespace Sys2Proof

/-- Every register of the default map has a well-formed table: one check per register, not one per field. -/
theorem defaultFieldMap_fieldsOk : ∀ r ∈ defaultFieldMap.map (·.reg), defaultConfig.fieldsOk r = true := by
  simp only [defaultFieldMap, modFields, cmrFields, srFields, irFields, ierFields, btrFields, ocrFields, errorFields,
    mailboxFields, firFields, viewBytes, tailFields, cdrFields, byteReg, fld, rsvd, List.map_append, List.map_flatMap,
    List.map_cons, List.map_nil, List.forall_mem_append, List.forall_mem_flatMap, List.forall_mem_cons,
    List.not_mem_nil, false_imp_iff, implies_true, and_true, and_self, and_self_left]
  decide

/-- Settles O51: the masks and tables are literals; past the window no word is owned. -/
theorem defaultParametersAreAsListed : Obligations.DefaultParametersAreAsListed := by
  refine ⟨defaultFieldMap_fieldsOk, by decide, by decide, by decide, by decide, by decide, fun a _ => ⟨?_, ?_⟩⟩
  · exact decide_eq_true_iff
  · by_cases ha : a < 34
    · interval_cases a <;> decide
    · have hout : ({ defaultConfig with coreOwned := .gk } : Config).wordClass a = .outside :=
        (Config.wordClass_outside _ a).mpr (by rw [show Config.nwords _ = 34 by decide]; omega)
      have hno : ({ defaultConfig with coreOwned := .gk } : Config).owns a ≠ true := fun howns => by
        rw [Config.owns_storage howns] at hout; cases hout
      refine ⟨fun howns => absurd howns hno, fun hmem => ?_⟩
      simp only [List.mem_cons, List.not_mem_nil, or_false] at hmem
      omega

/-- The sixteen words before the mailbox region where a reserved slot is one word. -/
def plainRegs : List Reg :=
  [.mod, .cmr, .sr, .ir, .ier, .rsv 0, .btr0, .btr1, .ocr, .rsv 1, .rsv 2, .alc, .ecc, .ewlr, .rxerr, .txerr]

theorem Config.layout_of_one_word_slots {cfg : Config} (h : cfg.rsvWords = 1) :
    cfg.layout = plainRegs ++ (mbxRun cfg.mbxWords ++ (bufferRegs ++ iramRun cfg.iramWords)) := by
  simp only [layout, h, List.append_assoc]
  rfl

/-- The place of a register that is none of the first sixteen. -/
theorem Config.wordIndex_of_not_plain {cfg : Config} (h : cfg.rsvWords = 1) {r : Reg} (hr : r.home ∉ plainRegs) :
    cfg.wordIndex r =
      ((mbxRun cfg.mbxWords ++ (bufferRegs ++ iramRun cfg.iramWords)).findIdx? (· = r.home)).map (· + 16) := by
  have hnone : plainRegs.findIdx? (· = r.home) = none :=
    List.findIdx?_eq_none_iff.mpr fun q hq => decide_eq_false fun hqr => hr (hqr ▸ hq)
  rw [wordIndex, layout_of_one_word_slots h, List.findIdx?_append, hnone, Option.none_or]
  rfl

theorem findIdx?_mbxRun {n k : Nat} (h : k < n) : (mbxRun n).findIdx? (· = Reg.mbx k) = some k := by
  rw [List.findIdx?_eq_some_iff_getElem]
  refine ⟨by simpa using h, by simp [mbxRun], fun j hj => ?_⟩
  simp [mbxRun]
  omega

/-- A register that stands for mailbox word `k` has its index. -/
theorem Config.wordIndex_mailbox {cfg : Config} (h : cfg.rsvWords = 1) {r : Reg} {k : Nat} (hr : r.home = .mbx k)
    (hk : k < cfg.mbxWords) : cfg.wordIndex r = some (16 + k) := by
  rw [wordIndex_of_not_plain h (by rw [hr]; simp [plainRegs]), hr, List.findIdx?_append, findIdx?_mbxRun hk,
    Option.some_or, Option.map_some, Nat.add_comm]

/-- The words after the mailbox region. -/
theorem Config.wordIndex_buffer {cfg : Config} (h : cfg.rsvWords = 1) {r : Reg} (hplain : r.home ∉ plainRegs)
    (hmbx : ∀ k, r.home ≠ .mbx k) {j : Nat} (hj : bufferRegs.findIdx? (· = r.home) = some j) :
    cfg.wordIndex r = some (16 + j + cfg.mbxWords) := by
  have hnone : (mbxRun cfg.mbxWords).findIdx? (· = r.home) = none := by
    refine List.findIdx?_eq_none_iff.mpr fun q hq => decide_eq_false fun hqr => ?_
    obtain ⟨k, _, rfl⟩ := List.mem_map.mp hq
    exact hmbx k hqr.symm
  rw [wordIndex_of_not_plain h hplain, List.findIdx?_append, hnone, Option.none_or, List.findIdx?_append, hj,
    Option.some_or, mbxRun_length, Option.map_some, Option.map_some]
  congr 1
  omega

/-- A view names the mailbox word of its row. -/
theorem View.home_of_item {v : View} {k : Nat} {r : Reg} (h : v.item k = some r) : r.home = .mbx k := by
  cases v <;> simp only [View.item] at h <;> split_ifs at h
  all_goals
    cases h
    exact congrArg Reg.mbx (by omega)

/-- Settles O52: the places are read off the register order. -/
theorem windowLayout : Obligations.WindowLayout := by
  intro cfg h
  have hbase : cfg.mbxBase = 16 := by simp [Config.mbxBase, h]
  refine ⟨by simp [Config.nwords_eq, h], hbase, fun k hk => ⟨?_, ?_⟩, fun v k r hk hitem => ?_, ?_, ?_, ?_,
    cfg.wordClass_outside, fun a => ⟨Config.wordClass_strobe, ?_⟩⟩
  · exact hbase ▸ cfg.wordClass_mailbox k hk
  · exact Config.wordIndex_mailbox h rfl hk
  · exact Config.wordIndex_mailbox h (View.home_of_item hitem) hk
  · exact Config.wordIndex_buffer (r := .rmc) (j := 0) h (by decide) (by simp [Reg.home]) rfl
  · exact Config.wordIndex_buffer (r := .rbsa) (j := 1) h (by decide) (by simp [Reg.home]) rfl
  · exact Config.wordIndex_buffer (r := .cdr) (j := 2) h (by decide) (by simp [Reg.home]) rfl
  · rintro rfl; exact cfg.wordClass_one

end Sys2Proof

/-! ## Interrupt words as sets of sources (41_bitfield.md R167) -/

namespace Sys2Proof.Machine

theorem mem_decodeIrq (v : Word) (i : IrqSource) : i ∈ decodeIrq v ↔ v.getLsbD i.bit = true := by
  have hlisted : i ∈ irqSources := by cases i <;> decide
  simp [decodeIrq, hlisted]

theorem IrqSource.bit_mem_mask (i : IrqSource) : (0x1EF : Word).getLsbD i.bit = true := by
  cases i <;> rfl

/-- A source's mask is its own bit alone. -/
theorem IrqSource.mask_getLsbD_bit (i j : IrqSource) : i.mask.getLsbD j.bit = decide (i = j) := by
  cases i <;> cases j <;> rfl

theorem getLsbD_foldl_mask (l : List IrqSource) (m : Word) (j : IrqSource) :
    (l.foldl (fun m i => m ||| i.mask) m).getLsbD j.bit = true ↔ m.getLsbD j.bit = true ∨ j ∈ l := by
  induction l generalizing m with
  | nil => simp
  | cons i l ih =>
    rw [List.foldl_cons, ih, BitVec.getLsbD_or, IrqSource.mask_getLsbD_bit, Bool.or_eq_true, decide_eq_true_eq,
      List.mem_cons, or_assoc, eq_comm (a := i)]

/-- Settles O54: a source is a bit, the mask 0x1EF holds the sources' bits, and a set's word is the union of its masks. -/
theorem interruptMaskIsASetOfSources : Obligations.InterruptMaskIsASetOfSources := by
  refine ⟨mem_decodeIrq, fun v => List.filter_congr fun i _ => ?_, fun l i => ?_⟩
  · rw [BitVec.getLsbD_and, i.bit_mem_mask, Bool.and_true]
  · rw [mem_decodeIrq, encodeIrq, getLsbD_foldl_mask]
    simp

end Sys2Proof.Machine

/-! ## Pseudo-operations (43_harness_and_macros.md R206 to R215) -/

namespace Sys2Proof.Machine

theorem execSeq_single {i : Instr} {s t : State} (h : exec i s = .next t) (hr : t.refused = none)
    (hf : t.faulted = none) : execSeq [i] s = .next t := execSeq_cons h hr hf

/-- A field depends on its own bits of the word. -/
theorem fieldGet_congr {x y : Word} {l w : Nat} (h : x &&& fieldMask l w = y &&& fieldMask l w) :
    fieldGet x l w = fieldGet y l w := by
  apply BitVec.eq_of_getLsbD_eq
  intro j hj
  have hbit := congrArg (·.getLsbD (l + j)) h
  simp only [BitVec.getLsbD_and, getLsbD_fieldMask] at hbit
  rw [getLsbD_fieldGet, getLsbD_fieldGet]
  by_cases hw : j < w
  · by_cases h32 : l + j < 32
    · simpa [hw, h32] using hbit
    · rw [BitVec.getLsbD_of_ge x _ (by omega), BitVec.getLsbD_of_ge y _ (by omega)]
  · simp [hw]

theorem fieldGet_full (x : Word) : fieldGet x 0 32 = x := by
  apply BitVec.eq_of_getLsbD_eq
  intro j hj
  rw [getLsbD_fieldGet]
  simp [hj]

/-- A field of implemented bits, put into a word read, stores as if it were put into the word stored. -/
theorem fieldPut_and_implemented {x y m v : Word} {l w : Nat} (hxy : x &&& m = y &&& m) (hy : y &&& ~~~ m = 0)
    (hfield : fieldMask l w &&& ~~~ m = 0) : fieldPut x l w v &&& m = fieldPut y l w v := by
  apply BitVec.eq_of_getLsbD_eq
  intro j hj
  have hxy := congrArg (·.getLsbD j) hxy
  have hy := congrArg (·.getLsbD j) hy
  have hfield := congrArg (·.getLsbD j) hfield
  simp only [BitVec.getLsbD_and, BitVec.getLsbD_not, getLsbD_fieldMask, hj, decide_true, Bool.true_and,
    Bool.and_true] at hxy hy hfield
  rw [BitVec.getLsbD_and, getLsbD_fieldPut _ _ _ _ _ hj, getLsbD_fieldPut _ _ _ _ _ hj]
  cases hm : m.getLsbD j
  · have hout : ¬ (l ≤ j ∧ j < l + w) := by simpa [hm] using hfield
    have hzero : y.getLsbD j = false := by simpa [hm] using hy
    rw [if_neg hout, if_neg hout, hzero, Bool.and_false]
  · have hsame : x.getLsbD j = y.getLsbD j := by simpa [hm] using hxy
    rw [hsame, Bool.and_true]

theorem fieldPut_zero (l w : Nat) (v : Word) : fieldPut 0 l w v = (v &&& ones w) <<< l := by
  rw [fieldPut, show (0 : Word) &&& ~~~ (fieldMask l w) = 0 from BitVec.zero_and]
  exact BitVec.zero_or

/-- The state after RD of a storage word. -/
def State.afterRd (s : State) (td : Temp) (reg : RegIdx) : State :=
  (((s.drawn).emit (.rd reg.val (s.readValue reg.val))).setTemp td.val (s.readValue reg.val)).advance

theorem exec_rd_eq_afterRd {td : Temp} {reg : RegIdx} {s : State} (h : s.cfg.wordClass reg.val = .storage) :
    exec (.rd td reg) s = .next (s.afterRd td reg) := exec_rd_readValue h

@[simp] theorem State.afterRd_cfg (s : State) (td : Temp) (reg : RegIdx) : (s.afterRd td reg).cfg = s.cfg := rfl
@[simp] theorem State.afterRd_regs (s : State) (td : Temp) (reg : RegIdx) : (s.afterRd td reg).regs = s.regs := rfl
@[simp] theorem State.afterRd_reg (s : State) (td : Temp) (reg : RegIdx) (a : Nat) :
    (s.afterRd td reg).reg a = s.reg a := rfl
@[simp] theorem State.afterRd_hist (s : State) (td : Temp) (reg : RegIdx) :
    (s.afterRd td reg).hist = s.hist ++ [Event.rd reg.val (s.readValue reg.val)] := rfl
@[simp] theorem State.afterRd_pc (s : State) (td : Temp) (reg : RegIdx) : (s.afterRd td reg).pc = s.pc + 1 := rfl
@[simp] theorem State.afterRd_refused (s : State) (td : Temp) (reg : RegIdx) :
    (s.afterRd td reg).refused = s.refused := rfl
@[simp] theorem State.afterRd_faulted (s : State) (td : Temp) (reg : RegIdx) :
    (s.afterRd td reg).faulted = s.faulted := rfl

theorem State.afterRd_temp_self (s : State) (td : Temp) (reg : RegIdx) :
    (s.afterRd td reg).temp td.val = some (s.readValue reg.val) := State.temp_setTemp_self _ _ _ td.isLt

theorem State.afterRd_temp_ne (s : State) {td : Temp} (reg : RegIdx) {j : Nat} (h : td.val ≠ j) :
    (s.afterRd td reg).temp j = s.temp j := State.temp_setTemp_ne _ _ _ _ h

/-- Settles O55: MOV is the field of all bits; FLD.RD extracts from the word read, whose field is the stored one. -/
theorem movCopiesAndFieldReadGivesTheStoredField : Obligations.MovCopiesAndFieldReadGivesTheStoredField := by
  refine ⟨fun td ts s x hr hf hx => ?_, fun td reg lsb wm1 s hr hf hclass ⟨hspan, hfield⟩ => ?_⟩
  · have hmov := exec_fext (td := td) (lsb := 0) (wm1 := 31) (by decide) hx
    rw [show fieldGet x (0 : BitPos).val ((31 : BitPos).val + 1) = x from fieldGet_full x] at hmov
    exact ⟨_, execSeq_single hmov hr hf, writesExactly_setTemp s td x⟩
  · have hread := exec_rd_eq_afterRd (td := td) hclass
    have hext := exec_fext (td := td) ((checkSpan_iff lsb wm1).mpr hspan) (s.afterRd_temp_self td reg)
    refine ⟨_, s.readValue reg.val,
      (execSeq_cons hread hr hf).trans (execSeq_single hext (by simpa using hr) (by simpa using hf)),
      ?_, by simp, by simp, by simp, by simpa using hr, by simpa using hf⟩
    rw [fieldGet_congr (s.readValue_and_of_implemented reg.val hfield).symm]
    exact State.temp_setTemp_self _ _ _ td.isLt

/-- RD and FINS of FLD.WR: `t15` holds the word read with the field put in, and the window is untouched. -/
theorem exec_rd_fins {reg : RegIdx} {lsb wm1 : BitPos} {ts : Temp} {s : State} {v : Word}
    (hr : s.refused = none) (hf : s.faulted = none) (hclass : s.cfg.wordClass reg.val = .storage)
    (hspan : lsb.val + (wm1.val + 1) ≤ 32) (hts : ts.val ≠ 15) (hv : s.temp ts.val = some v) :
    ∃ u, (∀ is, execSeq (.rd 15 reg :: .fins 15 ts lsb wm1 :: is) s = execSeq is u)
      ∧ u.temp 15 = some (fieldPut (s.readValue reg.val) lsb.val (wm1.val + 1) v) ∧ u.regs = s.regs ∧ u.cfg = s.cfg
      ∧ u.hist = s.hist ++ [Event.rd reg.val (s.readValue reg.val)] ∧ u.refused = none ∧ u.faulted = none := by
  have hsource : (s.afterRd 15 reg).temp ts.val = some v := (s.afterRd_temp_ne reg (Ne.symm hts)).trans hv
  have hread := exec_rd_eq_afterRd (td := 15) hclass
  have hput := exec_fins ((checkSpan_iff lsb wm1).mpr hspan) (s.afterRd_temp_self 15 reg) hsource
  refine ⟨_, fun is => (execSeq_cons hread (by simpa using hr) (by simpa using hf)).trans
    (execSeq_cons hput (by simpa using hr) (by simpa using hf)), State.temp_setTemp_self _ _ _ (by decide), ?_⟩
  simp [hr, hf]

/-- Settles O56: the field put into the word read is written back, of which only the implemented bits are stored. -/
theorem fieldWriteChangesOneField : Obligations.FieldWriteChangesOneField := by
  rintro reg lsb wm1 ts s v hr hf ⟨hwf, hinv⟩ hclass ⟨hspan, hfield⟩ hts hv
  obtain ⟨u, hrun, ht15, hregs, hcfg, hhist, hur, huf⟩ := exec_rd_fins hr hf hclass hspan hts hv
  have hwrite := exec_wr_storage (ts := 15) (hcfg ▸ hclass) ht15
  obtain ⟨rest, hhist', hrest⟩ := u.writeStorage_hist reg.val (fieldPut (s.readValue reg.val) lsb.val (wm1.val + 1) v)
  refine ⟨_, s.readValue reg.val, rest,
    (hrun _).trans (execSeq_single hwrite (by simpa using hur) (by simpa using huf)), ?_, ?_, hrest,
    by simpa using hur, by simpa using huf⟩
  · rw [State.advance_reg, State.reg_writeStorage_self (hregs ▸ hwf), hcfg]
    have hstored := hinv reg.val
    rw [Config.storageMask_of_storage hclass] at hstored
    exact fieldPut_and_implemented (s.readValue_and_implMask reg.val) hstored hfield
  · rw [State.advance_hist, hhist', hhist]
    simp

/-- Settles O57: FINS into zero gives the field's bits, and the strobe word records them. -/
theorem commandFieldWriteIsOneStrobe : Obligations.CommandFieldWriteIsOneStrobe := by
  intro lsb wm1 ts s v hr hf hspan hts hv
  have hli := exec_li (td := 15) (imm := 0) (s := s)
  have hzero := (writesExactly_setTemp s 15 0).temp (.head _)
  have hsource : (s.setTemp (15 : Temp).val 0).advance.temp ts.val = some v :=
    (State.temp_setTemp_ne _ _ _ _ (Ne.symm hts)).trans hv
  have hput := exec_fins (td := 15) ((checkSpan_iff lsb wm1).mpr hspan) hzero hsource
  rw [fieldPut_zero] at hput
  have ht15 := (writesExactly_setTemp (s.setTemp (15 : Temp).val 0).advance 15
    ((v &&& ones (wm1.val + 1)) <<< lsb.val)).temp (.head _)
  have hwrite := exec_wr_strobe (reg := cmrIdx) (ts := 15) (Config.wordClass_one _) ht15
  exact ⟨_, (execSeq_cons hli (by simpa using hr) (by simpa using hf)).trans
    ((execSeq_cons hput (by simpa using hr) (by simpa using hf)).trans
      (execSeq_single hwrite (by simpa using hr) (by simpa using hf))), by simp, by simp, by simpa using hr,
    by simpa using hf⟩

end Sys2Proof.Machine

/-! ## Pseudo-operations on the mailbox region (43_harness_and_macros.md R210 to R215) -/

namespace Sys2Proof.Machine

/-! ### The mailbox words of the default layout -/

theorem Standard.mbxBase {cfg : Config} (h : Standard cfg) : cfg.mbxBase = 16 := by
  obtain ⟨hrsv, _⟩ := h
  rw [Config.mbxBase, hrsv]

theorem Standard.mbxIdx_val {cfg : Config} (h : Standard cfg) {k : Nat} (hk : k < 13) :
    (mbxIdx cfg k).val = 16 + k := by
  rw [mbxIdx, h.mbxBase, Fin.val_ofNat, Nat.mod_eq_of_lt (by omega)]

theorem Standard.wordClass_mailbox {cfg : Config} (h : Standard cfg) {k : Nat} (hk : k < 13) :
    cfg.wordClass (16 + k) = .storage := by
  obtain ⟨_, hmbx, _⟩ := id h
  exact h.mbxBase ▸ cfg.wordClass_mailbox k (hmbx ▸ hk)

/-- The masks depend on the layout and the field map, which are the default's. -/
theorem Standard.implMask_eq {cfg : Config} (h : Standard cfg) (a : Nat) : cfg.implMask a = defaultConfig.implMask a := by
  obtain ⟨hrsv, hmbx, hiram, hmap⟩ := h
  have hlayout : cfg.layout = defaultConfig.layout := by
    simp only [Config.layout, hrsv, hmbx, hiram, defaultConfig]
  simp only [Config.implMask, Config.regMask, hlayout, hmap, defaultConfig]

theorem Standard.implMask_mailbox {cfg : Config} (h : Standard cfg) {k : Nat} (hk : k < 13) :
    cfg.implMask (16 + k) = 0xFF := by
  obtain ⟨_, _, _, _, _, hbytes, _⟩ := defaultParametersAreAsListed
  rw [h.implMask_eq]
  exact hbytes (16 + k) (by interval_cases k <;> simp)

/-! ### Several WRs, several RDs -/

/-- A WR of mailbox word `k` from temporary `ts`, which holds `v`. -/
structure MailboxWrite where
  k : Nat
  ts : Temp
  v : Word

def MailboxWrite.instr (cfg : Config) (w : MailboxWrite) : Instr := .wr (mbxIdx cfg w.k) w.ts
def MailboxWrite.event (w : MailboxWrite) : Event := .wr (16 + w.k) w.v

/-- `t` is `s` after these WRs, each of a word of its own, and the run may go on. -/
structure AfterWrites (s t : State) (l : List MailboxWrite) : Prop where
  wf : t.regs.wf
  cfg_eq : t.cfg = s.cfg
  refused : t.refused = none
  faulted : t.faulted = none
  hist_eq : t.hist = s.hist ++ l.map MailboxWrite.event
  written : ∀ w ∈ l, t.reg (16 + w.k) = lane w.v
  others : ∀ a, (∀ w ∈ l, a ≠ 16 + w.k) → t.reg a = s.reg a

theorem exec_mailboxWrite {s : State} {w : MailboxWrite} (hstd : Standard s.cfg) (hwf : s.regs.wf) (hr : s.refused = none)
    (hf : s.faulted = none) (hk : w.k < 13) (hv : s.temp w.ts.val = some w.v) :
    ∃ t, exec (w.instr s.cfg) s = .next t ∧ AfterWrites s t [w] ∧ t.temps = s.temps := by
  have hidx := hstd.mbxIdx_val hk
  have hexec := exec_wr_storage (reg := mbxIdx s.cfg w.k) (by rw [hidx]; exact hstd.wordClass_mailbox hk) hv
  rw [hidx] at hexec
  have hm : ¬ s.modeChanges (16 + w.k) w.v := fun ⟨_, hzero, _⟩ => absurd hzero (by omega)
  refine ⟨_, hexec, ⟨State.wf_writeStorage hwf _ _, by simp, by simpa using hr, by simpa using hf,
    by simp [State.writeStorage_plain hm, MailboxWrite.event], fun w' hw' => ?_, fun a ha => ?_⟩,
    by simp [State.writeStorage_plain hm]⟩
  · rw [List.mem_singleton.mp hw', State.advance_reg, State.reg_writeStorage_self hwf, hstd.implMask_mailbox hk]
    rfl
  · exact State.reg_writeStorage_other hwf (Ne.symm (ha w List.mem_cons_self)) fun h => hm h.1

/-- WRs of different mailbox words, one after the other. -/
theorem execSeq_mailboxWrites (l : List MailboxWrite) : ∀ s : State, Standard s.cfg → s.regs.wf → s.refused = none →
    s.faulted = none → (∀ w ∈ l, w.k < 13 ∧ s.temp w.ts.val = some w.v) → (l.map MailboxWrite.k).Nodup →
    ∃ t, execSeq (l.map (MailboxWrite.instr s.cfg)) s = .next t ∧ AfterWrites s t l := by
  induction l with
  | nil => exact fun s _ hwf hr hf _ _ => ⟨s, rfl, hwf, rfl, hr, hf, by simp, by simp, fun _ _ => rfl⟩
  | cons w l ih =>
    intro s hstd hwf hr hf hl hnodup
    obtain ⟨hhead, hrest⟩ := List.forall_mem_cons.mp hl
    obtain ⟨hfresh, hnodup⟩ := List.nodup_cons.mp hnodup
    obtain ⟨u, hexec, hu, htemps⟩ := exec_mailboxWrite hstd hwf hr hf hhead.1 hhead.2
    obtain ⟨t, hrun, ht⟩ := ih u (hu.cfg_eq ▸ hstd) hu.wf hu.refused hu.faulted
      (fun w' hw' => ⟨(hrest w' hw').1, by simpa only [State.temp, htemps] using (hrest w' hw').2⟩) hnodup
    rw [hu.cfg_eq] at hrun
    refine ⟨t, (execSeq_cons hexec hu.refused hu.faulted).trans hrun, ht.wf, ht.cfg_eq.trans hu.cfg_eq, ht.refused,
      ht.faulted, by simp [ht.hist_eq, hu.hist_eq], List.forall_mem_cons.mpr ⟨?_, ht.written⟩, fun a ha => ?_⟩
    · rw [ht.others _ fun w' hw' hk => hfresh (List.mem_map.mpr ⟨w', hw', by omega⟩)]
      exact hu.written w List.mem_cons_self
    · obtain ⟨hne, hothers⟩ := List.forall_mem_cons.mp ha
      rw [ht.others a hothers, hu.others a (by simpa using hne)]

/-- A RD of mailbox word `k` into temporary `td`. -/
structure MailboxRead where
  td : Temp
  k : Nat

def MailboxRead.instr (cfg : Config) (r : MailboxRead) : Instr := .rd r.td (mbxIdx cfg r.k)

/-- `t` is `s` after these RDs, each into a temporary of its own, and the run may go on; RD `r` gave `value r`. -/
structure AfterReads (s t : State) (l : List MailboxRead) (value : MailboxRead → Word) : Prop where
  cfg_eq : t.cfg = s.cfg
  regs_eq : t.regs = s.regs
  refused : t.refused = none
  faulted : t.faulted = none
  hist_eq : t.hist = s.hist ++ l.map fun r => Event.rd (16 + r.k) (value r)
  read : ∀ r ∈ l, t.temp r.td.val = some (value r) ∧ lane (value r) = lane (s.reg (16 + r.k))
  others : ∀ j, (∀ r ∈ l, r.td.val ≠ j) → t.temp j = s.temp j

/-- The values of a RD and of the RDs after it. -/
def consValue (r : MailboxRead) (v : Word) (value : MailboxRead → Word) : MailboxRead → Word :=
  fun q => if q.td = r.td then v else value q

theorem consValue_self (r : MailboxRead) (v : Word) (value : MailboxRead → Word) : consValue r v value r = v := if_pos rfl

theorem consValue_of_td_ne {r q : MailboxRead} (h : q.td ≠ r.td) (v : Word) (value : MailboxRead → Word) :
    consValue r v value q = value q := if_neg h

/-- RDs of mailbox words into different temporaries, one after the other. -/
theorem execSeq_mailboxReads (l : List MailboxRead) : ∀ s : State, Standard s.cfg → s.refused = none → s.faulted = none →
    (∀ r ∈ l, r.k < 13) → (l.map MailboxRead.td).Nodup →
    ∃ t value, (∀ is, execSeq (l.map (MailboxRead.instr s.cfg) ++ is) s = execSeq is t) ∧ AfterReads s t l value := by
  induction l with
  | nil => exact fun s _ hr hf _ _ => ⟨s, fun _ => 0, fun _ => rfl, rfl, rfl, hr, hf, by simp, by simp, fun _ _ => rfl⟩
  | cons r l ih =>
    intro s hstd hr hf hl hnodup
    obtain ⟨hk, hrest⟩ := List.forall_mem_cons.mp hl
    obtain ⟨hfresh, hnodup⟩ := List.nodup_cons.mp hnodup
    have htd : ∀ q ∈ l, q.td ≠ r.td := fun q hq h => hfresh (List.mem_map.mpr ⟨q, hq, h⟩)
    have hidx := hstd.mbxIdx_val hk
    have hexec := exec_rd_eq_afterRd (td := r.td) (reg := mbxIdx s.cfg r.k)
      (by rw [hidx]; exact hstd.wordClass_mailbox hk)
    obtain ⟨t, value, hrun, ht⟩ := ih (s.afterRd r.td (mbxIdx s.cfg r.k)) hstd hr hf hrest hnodup
    have hvalue : ∀ q ∈ l, consValue r (s.readValue (16 + r.k)) value q = value q :=
      fun q hq => consValue_of_td_ne (htd q hq) _ _
    refine ⟨t, consValue r (s.readValue (16 + r.k)) value, fun is => (execSeq_cons hexec hr hf).trans (hrun is),
      ht.cfg_eq, ht.regs_eq, ht.refused, ht.faulted, ?_, List.forall_mem_cons.mpr ⟨⟨?_, ?_⟩, fun q hq => ?_⟩, fun j hj => ?_⟩
    · rw [ht.hist_eq, State.afterRd_hist, hidx, List.map_cons, consValue_self, List.append_assoc]
      exact congrArg (fun es => s.hist ++ _ :: es) (List.map_congr_left fun q hq => by rw [hvalue q hq])
    · rw [consValue_self, ht.others _ fun q hq h => htd q hq (Fin.ext h), State.afterRd_temp_self, hidx]
    · rw [consValue_self]
      have himpl := s.readValue_and_implMask (16 + r.k)
      rwa [hstd.implMask_mailbox hk] at himpl
    · rw [hvalue q hq]
      exact ht.read q hq
    · obtain ⟨hne, hothers⟩ := List.forall_mem_cons.mp hj
      rw [ht.others j hothers, State.afterRd_temp_ne _ _ hne]

/-! ### Lanes and records cut to a byte -/

@[simp] theorem lane_lane (v : Word) : lane (lane v) = lane v := by
  rw [lane, lane, BitVec.and_assoc, BitVec.and_self]

theorem decStd_congr {x y x' y' : Word} (hx : lane x = lane x') (hy : lane y = lane y') : decStd x y = decStd x' y' := by
  simp only [decStd, hx, hy]

theorem decExt_congr {x y z q x' y' z' q' : Word} (hx : lane x = lane x') (hy : lane y = lane y') (hz : lane z = lane z')
    (hq : lane q = lane q') : decExt x y z q = decExt x' y' z' q' := by
  simp only [decExt, hx, hy, hz, hq]

theorem fieldGet_lane (x : Word) {l w : Nat} (h : l + w ≤ 8) : fieldGet (lane x) l w = fieldGet x l w := by
  apply BitVec.eq_of_getLsbD_eq
  intro j hj
  rw [getLsbD_fieldGet, getLsbD_fieldGet, getLsbD_lane]
  by_cases hw : j < w
  · rw [decide_eq_true (by omega : l + j < 8), Bool.true_and]
  · rw [decide_eq_false hw, Bool.false_and, Bool.false_and]

/-- The record's four fields lie in its low byte. -/
theorem firUnpack_lane (x : Word) : firUnpack (lane x) = firUnpack x := by
  simp only [firUnpack]
  rw [fieldGet_lane x (by decide), fieldGet_lane x (by decide), fieldGet_lane x (by decide), fieldGet_lane x (by decide)]

/-! ### The three pairs of pseudo-operations -/

theorem WritesExactly.frame {s t : State} {l : List (Nat × Word)} (h : WritesExactly s t l) :
    t.cfg = s.cfg ∧ t.regs = s.regs ∧ t.hist = s.hist ∧ t.refused = s.refused ∧ t.faulted = s.faulted := by
  obtain ⟨heq, _⟩ := h
  rw [heq]
  exact ⟨rfl, rfl, rfl, rfl, rfl⟩

/-- A pure operation that fills the temporaries, then WRs of mailbox words from them. -/
theorem execSeq_fill_then_writes {i : Instr} {s u : State} {filled : List (Nat × Word)} {l : List MailboxWrite}
    (hr : s.refused = none) (hf : s.faulted = none) (hwf : s.regs.wf) (hstd : Standard s.cfg)
    (hexec : exec i s = .next u) (hfill : WritesExactly s u filled)
    (hl : ∀ w ∈ l, w.k < 13 ∧ (w.ts.val, w.v) ∈ filled) (hnodup : (l.map MailboxWrite.k).Nodup) :
    ∃ t, execSeq (i :: l.map (MailboxWrite.instr s.cfg)) s = .next t ∧ AfterWrites s t l := by
  obtain ⟨hcfg, hregs, hhist, href, hfault⟩ := hfill.frame
  obtain ⟨t, hrun, ht⟩ := execSeq_mailboxWrites l u (hcfg ▸ hstd) (hregs ▸ hwf) (href.trans hr) (hfault.trans hf)
    (fun w hw => ⟨(hl w hw).1, hfill.temp (hl w hw).2⟩) hnodup
  rw [hcfg] at hrun
  refine ⟨t, (execSeq_cons hexec (href.trans hr) (hfault.trans hf)).trans hrun, ht.wf, ht.cfg_eq.trans hcfg, ht.refused,
    ht.faulted, hhist ▸ ht.hist_eq, ht.written, fun a ha => (ht.others a ha).trans ?_⟩
  simp only [State.reg, hregs]

/-- RDs of mailbox words, then a pure operation on the temporaries. -/
theorem execSeq_reads_then_join {i : Instr} {s t u : State} {l : List MailboxRead} {value : MailboxRead → Word}
    {joined : List (Nat × Word)} (hrun : ∀ is, execSeq (l.map (MailboxRead.instr s.cfg) ++ is) s = execSeq is t)
    (ht : AfterReads s t l value) (hexec : exec i t = .next u) (hjoin : WritesExactly t u joined) :
    execSeq (l.map (MailboxRead.instr s.cfg) ++ [i]) s = .next u
      ∧ u.hist = s.hist ++ l.map fun r => Event.rd (16 + r.k) (value r) := by
  obtain ⟨_, _, hhist, href, hfault⟩ := hjoin.frame
  exact ⟨(hrun [i]).trans (execSeq_single hexec (href.trans ht.refused) (hfault.trans ht.faulted)),
    hhist.trans ht.hist_eq⟩

/-- Settles O58: the record fits the implemented byte of word 16, and its fields are read from that byte. -/
theorem frameInfoWriteAndRead : Obligations.FrameInfoWriteAndRead := by
  intro ts s dlc unk rtr ff w hr hf hwf hstd hts h0 h1 h2 h3 hw
  rw [← firPack_eq] at hw
  obtain ⟨p, hpack, hp⟩ := exec_firPack_writes (td := 15) (by omega) h0 h1 h2 h3 hw.symm
  obtain ⟨t, hrun, ht⟩ := execSeq_fill_then_writes (l := [⟨0, 15, w⟩]) hr hf hwf hstd hpack hp (by simp) (by simp)
  have hfits : lane w = w := by rw [hw, lane_firPack]
  have hword : t.reg 16 = w := (ht.written ⟨0, 15, w⟩ (by simp)).trans hfits
  refine ⟨t, hrun, ht.hist_eq, hword, fun td htd => ?_⟩
  obtain ⟨q, value, hreads, hq⟩ := execSeq_mailboxReads [⟨15, 0⟩] t (ht.cfg_eq ▸ hstd) ht.refused ht.faulted (by simp)
    (by simp)
  obtain ⟨htemp, hlane⟩ := hq.read ⟨15, 0⟩ (by simp)
  have hfields : firUnpack (value ⟨15, 0⟩) = firUnpack (firPack dlc unk rtr ff) := by
    rw [← firUnpack_lane, hlane, Nat.add_zero, hword, hw, firUnpack_lane]
  rw [firUnpack_firPack] at hfields
  obtain ⟨u, hunpack, hu⟩ := exec_firUnpack_writes (td := td) (by omega) htemp hfields
  obtain ⟨hall, hhist⟩ := execSeq_reads_then_join hreads hq hunpack hu
  exact ⟨u, _, hall, hhist, hu.temp (by simp), hu.temp (by simp), hu.temp (by simp), hu.temp (by simp)⟩

/-- Settles O59: each lane fits the implemented byte of its word, and DEC.STD reads that byte alone. -/
theorem standardIdThroughTheRegisters : Obligations.StandardIdThroughTheRegisters := by
  intro ts s id l0 l1 hr hf hwf hstd hts hid h0 h1
  have hlanes : encStd id = [l0, l1] := by rw [encStd_eq, h0, h1]
  obtain ⟨p, henc, hp⟩ := exec_encStd_writes (td := 14) (by decide) hid hlanes
  obtain ⟨t, hrun, ht⟩ := execSeq_fill_then_writes (l := [⟨1, 14, l0⟩, ⟨2, 15, l1⟩]) hr hf hwf hstd henc hp (by simp)
    (by simp)
  simp only [encStd, List.cons.injEq, and_true] at hlanes
  obtain ⟨rfl, rfl⟩ := hlanes
  have hword0 := ht.written ⟨1, 14, _⟩ (.head _)
  have hword1 := ht.written ⟨2, 15, _⟩ (.tail _ (.head _))
  rw [lane_lane] at hword0 hword1
  refine ⟨t, hrun, ht.hist_eq, hword0, hword1, fun td => ?_⟩
  obtain ⟨q, value, hreads, hq⟩ := execSeq_mailboxReads [⟨14, 1⟩, ⟨15, 2⟩] t (ht.cfg_eq ▸ hstd) ht.refused ht.faulted
    (by simp) (by simp)
  obtain ⟨htemp0, hlane0⟩ := hq.read ⟨14, 1⟩ (by simp)
  obtain ⟨htemp1, hlane1⟩ := hq.read ⟨15, 2⟩ (by simp)
  obtain ⟨u, hdec, hu⟩ := exec_decStd_writes (td := td) (ts := 14) (by decide) htemp0 htemp1
    ((decStd_congr (hlane0.trans (congrArg lane hword0)) (hlane1.trans (congrArg lane hword1))).trans (decStd_of_lanes id))
  obtain ⟨hall, hhist⟩ := execSeq_reads_then_join hreads hq hdec hu
  exact ⟨u, _, _, hall, hhist, hu.temp (.head _)⟩

/-- Settles O60: each lane fits the implemented byte of its word, and DEC.EXT reads that byte alone. -/
theorem extendedIdThroughTheRegisters : Obligations.ExtendedIdThroughTheRegisters := by
  intro ts s id l0 l1 l2 l3 hr hf hwf hstd hts hid h0 h1 h2 h3
  have hlanes : encExt id = [l0, l1, l2, l3] := by rw [encExt_eq, h0, h1, h2, h3]
  obtain ⟨p, henc, hp⟩ := exec_encExt_writes (td := 12) (by decide) hid hlanes
  obtain ⟨t, hrun, ht⟩ := execSeq_fill_then_writes
    (l := [⟨1, 12, l0⟩, ⟨2, 13, l1⟩, ⟨3, 14, l2⟩, ⟨4, 15, l3⟩]) hr hf hwf hstd henc hp (by simp) (by simp)
  simp only [encExt, List.cons.injEq, and_true] at hlanes
  obtain ⟨rfl, rfl, rfl, rfl⟩ := hlanes
  have hword0 := ht.written ⟨1, 12, _⟩ (.head _)
  have hword1 := ht.written ⟨2, 13, _⟩ (.tail _ (.head _))
  have hword2 := ht.written ⟨3, 14, _⟩ (.tail _ (.tail _ (.head _)))
  have hword3 := ht.written ⟨4, 15, _⟩ (.tail _ (.tail _ (.tail _ (.head _))))
  rw [lane_lane] at hword0 hword1 hword2 hword3
  refine ⟨t, hrun, ht.hist_eq, hword0, hword1, hword2, hword3, fun td => ?_⟩
  obtain ⟨q, value, hreads, hq⟩ := execSeq_mailboxReads [⟨12, 1⟩, ⟨13, 2⟩, ⟨14, 3⟩, ⟨15, 4⟩] t (ht.cfg_eq ▸ hstd)
    ht.refused ht.faulted (by simp) (by simp)
  obtain ⟨htemp0, hlane0⟩ := hq.read ⟨12, 1⟩ (by simp)
  obtain ⟨htemp1, hlane1⟩ := hq.read ⟨13, 2⟩ (by simp)
  obtain ⟨htemp2, hlane2⟩ := hq.read ⟨14, 3⟩ (by simp)
  obtain ⟨htemp3, hlane3⟩ := hq.read ⟨15, 4⟩ (by simp)
  have hvalue := decExt_congr (hlane0.trans (congrArg lane hword0)) (hlane1.trans (congrArg lane hword1))
    (hlane2.trans (congrArg lane hword2)) (hlane3.trans (congrArg lane hword3))
  obtain ⟨u, hdec, hu⟩ := exec_decExt_writes (td := td) (ts := 12) (by decide) htemp0 htemp1 htemp2 htemp3
    (hvalue.trans (decExt_of_lanes id))
  obtain ⟨hall, hhist⟩ := execSeq_reads_then_join hreads hq hdec hu
  exact ⟨u, _, _, _, _, hall, hhist, hu.temp (.head _)⟩

end Sys2Proof.Machine
